-- ==== Sys2Proof/Word.lean ====
section
/-! DEFINITION. The word types of CA-CORE: bytes, the program counter, register indices. -/

namespace Sys2Proof

/-- A byte: a register value, a memory cell, an operand byte, an immediate (R7 `XLEN`, R8). Always unsigned. -/
abbrev Byte := BitVec 8

/-- The program counter's 9 bits (R16, `PCW` of R7): 0..255 are fetch addresses, 256 is "advanced past the end". -/
abbrev PcWord := BitVec 9

/-- The index of one of the eight general registers (R11). -/
abbrev RegIdx := Fin 8

end Sys2Proof
end

