-- ==== Sys2Proof/Config.lean ====
section
/-! DEFINITION. The parameters of the machine, row by row from the table of R7 (00_scope.md). The machine leaves no value
free, so nothing here is opaque; the one open parameter, `IMAGE`, is an argument of `State.resetWith`. -/

namespace Sys2Proof.Config

/-- `MEMSIZE`: memory cells, addresses 0 to 255 (R7, R30). -/
def memSize : Nat := 256

/-- `NREGS`: general registers, indices 0 to 7 (R7, R11). -/
def numRegs : Nat := 8

/-- `SP_INDEX`: the register that is the stack pointer (R7, R13). -/
def spIndex : RegIdx := 7

/-- `SP_RESET`: the reset value of R7 (R7, R28). -/
def spReset : Byte := 0xF4#8

/-- `PC_RESET`: the entry point (R7, R151). -/
def pcReset : PcWord := 0#9

/-- `MAXOPERANDS`: the largest operand count of a defined opcode (R7). -/
def maxOperands : Nat := 2

/-- The most bytes an instruction has (R52: lengths in use are 1, 2 and 3). -/
def maxLength : Nat := maxOperands + 1

/-- What a memory cell holds after reset where the image does not reach (R28, R30): also what an address reads as that
the memory list does not name. -/
def unlistedByte : Byte := 0x00#8

end Sys2Proof.Config
end

