-- ==== Sys2Proof/Machine/State.lean ====
section
/-! DEFINITION. The state of CA-CORE, whole (R10), and its value right after reset (R28, R150 with the empty image). -/

namespace Sys2Proof.Machine

open Sys2Proof

/-- The three condition flags, three separate bits with no byte image (R19, R21). -/
structure Flags where
  /-- `FL.E`, Equal. -/
  e : Bool
  /-- `FL.G`, Greater-Than. -/
  g : Bool
  /-- `FL.L`, Less-Than. -/
  l : Bool
  deriving DecidableEq, Repr

/-- The run state (R22). -/
inductive RunState where
  /-- The dispatcher executes cycles. -/
  | running
  /-- Entered by HLT; left by reset only. -/
  | halted
  /-- Entered by a fault; left by reset only. -/
  | faulted
  deriving DecidableEq, Repr

/-- The four fault causes, exactly the names of R125 (R130: a four-valued enumeration, no numeric codes).
They stand in the fault record. Raising one is a NEXT state with `run` Faulted (R131), so no step of this model answers
`.fault`: the spec describes the whole of what each does (DESIGN CHOICE, safe, log 1). -/
inductive Fault where
  /-- Raised by the lookup stage of a cycle on a byte that is none of the 22 opcodes (R126). Safe: the spec's own fault. -/
  | unknownOpcode
  /-- Raised by DIV and MOD when the second register holds 0 (R127). Safe: the spec's own fault. -/
  | divisionByZero
  /-- Raised by an opcode or operand fetch above address 255, and by CALL for a return address above 255 (R128). Safe: the
  spec's own fault. -/
  | addressOutOfRange
  /-- Raised by every instruction with a register operand on an operand byte above 7 (R129). Safe: the spec's own fault. -/
  | registerOutOfRange
  deriving DecidableEq, Repr

/-- What the model gives no meaning to. -/
inductive Refusal where
  /-- Raised by no arm: every instruction of the opcode table has its meaning. Safe. -/
  | notModelled (mnemonic : String)
  /-- Raised by `State.resetWith` only: the image has more than 256 elements and is no launch state (R153). Safe. -/
  | imageTooLong (length : Nat)
  /-- Raised by `State.resetWith` only: the image holds a value outside 0..255 and is no launch state (R153). Safe. -/
  | imageValueNotAByte (value : Int)
  deriving DecidableEq, Repr

/-- The fault record (R23). `info` is the opcode byte (UnknownOpcode, DivisionByZero), the address (AddressOutOfRange) or
the operand byte (RegisterOutOfRange); the spec gives it no width, so it is a number (DESIGN CHOICE, safe, log 3). -/
structure FaultRecord where
  cause : Fault
  fpc   : PcWord
  info  : Nat
  deriving DecidableEq, Repr

/-- Memory: the cells that do not hold 0, addresses rising (`Memory.wf`); every other address reads as 0 (R28, R30;
log 8). -/
abbrev Memory := List Host.Cell

/-- The complete architectural state (R10). -/
structure State where
  /-- `x[0]`..`x[7]` (R11); `x[7]` is the stack pointer, the one copy (R13). -/
  regs  : Vector Byte 8
  /-- The program counter; during a cycle the address of the instruction's opcode byte (R16). -/
  pc    : PcWord
  /-- `FL` (R19). -/
  flags : Flags
  /-- The run state (R22). -/
  run   : RunState
  /-- The fault record, none unless `run` is Faulted (R23, R150). -/
  fault : Option FaultRecord
  /-- `Mem[0..255]` (R30). -/
  mem   : Memory
  /-- The output stream, oldest byte first (R24). -/
  out   : List Byte
  deriving DecidableEq, Repr

/-- The machine right after `Reset` of the empty image: every value is the spec's (R28, R150, R153). -/
def State.reset : State where
  regs  := #v[0x00#8, 0x00#8, 0x00#8, 0x00#8, 0x00#8, 0x00#8, 0x00#8, Config.spReset]
  pc    := Config.pcReset
  flags := ⟨false, false, false⟩
  run   := .running
  fault := none
  mem   := []
  out   := []

/-- What a step or a meaning answers. -/
abbrev Result := Host.Outcome State Fault Refusal

end Sys2Proof.Machine
end

