-- ==== Sys2Proof/Machine/Ops.lean ====
section
/-! DEFINITION. The shared operations over memory, registers, the stack, the program counter and the output stream, and
raising a fault. -/

namespace Sys2Proof.Machine

open Sys2Proof

/-! ### Memory (20_memory.md) -/

/-- `MemRead(addr, 1)` (R32): the byte at an address. No caller passes an address above 255 (R34). -/
def Memory.read : Memory → Nat → Byte
  | [], _ => Config.unlistedByte
  | (k, v) :: m, a => if k = a then v else Memory.read m a

/-- `MemWrite(addr, 1, v)` (R33), keeping the list's form: a cell that gets 0 leaves the list. -/
def Memory.write : Memory → Nat → Byte → Memory
  | [], a, v => if v = Config.unlistedByte then [] else [(a, v)]
  | (k, w) :: m, a, v =>
    if a < k then (if v = Config.unlistedByte then (k, w) :: m else (a, v) :: (k, w) :: m)
    else if a = k then (if v = Config.unlistedByte then m else (a, v) :: m)
    else (k, w) :: Memory.write m a v

/-- The form from address `lo` up: addresses rise and stay below 256, no listed cell holds what an unlisted one reads. -/
def Memory.wfFrom : Nat → Memory → Bool
  | _, [] => true
  | lo, (k, v) :: m =>
    decide (lo ≤ k) && decide (k < Config.memSize) && decide (v ≠ Config.unlistedByte) && Memory.wfFrom (k + 1) m

/-- The one canonical form of a memory: equal memories are equal lists. -/
def Memory.wf (m : Memory) : Bool := Memory.wfFrom 0 m

/-! ### Registers (10_state.md) -/

/-- `x[i]`, the source's `get(index)` (R11). No register is hard-wired (R12). -/
def State.reg (s : State) (r : RegIdx) : Byte := s.regs[r]

/-- `x[i] <- v`, the source's `set(index, value)` (R11). -/
def State.setReg (s : State) (r : RegIdx) (v : Byte) : State := { s with regs := s.regs.set r v }

/-- `SP`, which is `x[7]` (R13). -/
def State.sp (s : State) : Byte := s.reg Config.spIndex

/-- `SP <- v`, which is `x[7] <- v` (R13). -/
def State.setSp (s : State) (v : Byte) : State := s.setReg Config.spIndex v

/-! ### Program counter, output, run state -/

/-- The auto-advance `pc <- pc + n`, a 9-bit addition (R17, R73). -/
def State.advance (s : State) (n : Nat) : State := { s with pc := s.pc + BitVec.ofNat 9 n }

/-- `pc <- target` for a target byte: 0..255, every one legal (R18). -/
def State.jumpTo (s : State) (target : Byte) : State := { s with pc := target.setWidth 9 }

/-- `Out(v)` (R24): append to the output stream. -/
def State.emit (s : State) (v : Byte) : State := { s with out := s.out ++ [v] }

/-- `run <- Halted` and nothing else (R102). -/
def State.halt (s : State) : State := { s with run := .halted }

/-- `FL <- f`, all three flags (R92). -/
def State.setFlags (s : State) (f : Flags) : State := { s with flags := f }

/-! ### Stack (43_stack_subroutine.md) -/

/-- A push (R105): `SP <- (SP - 1) mod 256`, then the byte that `v` gives in the state so far is stored at the new SP
(the statements run in the order written, R9). -/
def State.push (s : State) (v : State → Byte) : State :=
  let s' := s.setSp (s.sp - 1#8)
  { s' with mem := s'.mem.write s'.sp.toNat (v s') }

/-- `MemRead(SP, 1)`: the byte on top of the stack (R105). -/
def State.top (s : State) : Byte := s.mem.read s.sp.toNat

/-- `SP <- (SP + 1) mod 256` (R105): the popped cell keeps its byte. -/
def State.dropTop (s : State) : State := s.setSp (s.sp + 1#8)

/-! ### Taking a fault (60_exceptions.md) -/

/-- `raise F(info)` (R131): `run <- Faulted` and the fault record; registers, flags, memory, `out` and `pc` keep their
values. Nothing returns from a fault but reset (R133), so no operation stands beside it. -/
def State.raise (s : State) (cause : Fault) (info : Nat) : State :=
  { s with run := .faulted, fault := some ⟨cause, s.pc, info⟩ }

end Sys2Proof.Machine
end

