-- ==== Sys2Proof/Machine/Flags.lean ====
section
/-! DEFINITION. The one flag computation of the machine: CMP's (R92, R94). -/

namespace Sys2Proof.Machine

open Sys2Proof

/-- The flags CMP leaves: an unsigned comparison, all three written (R20, R92). -/
def cmpFlags (x y : Byte) : Flags where
  e := decide (x.toNat = y.toNat)
  g := decide (x.toNat > y.toNat)
  l := decide (x.toNat < y.toNat)

end Sys2Proof.Machine
end

