-- ==== Sys2Proof/Machine/Operands.lean ====
section
/-! DEFINITION. Operand forms: the only one with a check is the register operand, the whole operand byte as an index
(R53, R54, R55). -/

namespace Sys2Proof.Machine

open Sys2Proof

/-- The register an operand byte names; none for 8..255. The byte is not masked (R55). -/
def regIndex (op : Byte) : Option RegIdx :=
  if h : op.toNat < 8 then some ⟨op.toNat, h⟩ else none

/-- The operand byte that names a register. -/
def regByte (r : RegIdx) : Byte := BitVec.ofNat 8 r.val

/-- The register-index check of one operand (R71): the rest of the instruction with the register, or RegisterOutOfRange
with the byte, before any write. -/
def State.withReg (s : State) (op : Byte) (k : RegIdx → State) : State :=
  match regIndex op with
  | some r => k r
  | none => s.raise .registerOutOfRange op.toNat

/-- The check of two register operands, op1 then op2 (R71). -/
def State.withRegs (s : State) (op1 op2 : Byte) (k : RegIdx → RegIdx → State) : State :=
  s.withReg op1 fun a => s.withReg op2 fun b => k a b

end Sys2Proof.Machine
end

