-- ==== Sys2Proof/Machine/Alu.lean ====
section
/-! DEFINITION. The twelve ALU instructions (41_alu.md). -/

namespace Sys2Proof.Machine

open Sys2Proof

/-! ### The results, as unsigned bytes (R93) -/

/-- R81: the exact sum modulo 256. -/
def aluAdd (x y : Byte) : Byte := BitVec.ofNat 8 (x.toNat + y.toNat)

/-- R82: the exact difference modulo 256, `mod` never negative (R9). -/
def aluSub (x y : Byte) : Byte := BitVec.ofInt 8 ((x.toNat : Int) - (y.toNat : Int))

/-- R83: the exact product modulo 256. -/
def aluMul (x y : Byte) : Byte := BitVec.ofNat 8 (x.toNat * y.toNat)

/-- R84: the unsigned quotient rounded down; used for a non-zero divisor only. -/
def aluDiv (x y : Byte) : Byte := BitVec.ofNat 8 (x.toNat / y.toNat)

/-- R85: the unsigned remainder; used for a non-zero divisor only. -/
def aluMod (x y : Byte) : Byte := BitVec.ofNat 8 (x.toNat % y.toNat)

/-- R86. -/
def aluAnd (x y : Byte) : Byte := x &&& y

/-- R87. -/
def aluOr (x y : Byte) : Byte := x ||| y

/-- R88. -/
def aluXor (x y : Byte) : Byte := x ^^^ y

/-- R89: `255 - x`, every bit inverted. -/
def aluNot (x : Byte) : Byte := BitVec.ofNat 8 (255 - x.toNat)

/-- R90: the amount is the whole byte; 8 or more gives 0. -/
def aluShl (x y : Byte) : Byte := if y.toNat ≥ 8 then 0#8 else BitVec.ofNat 8 (x.toNat * 2 ^ y.toNat)

/-- R91: the amount is the whole byte; 8 or more gives 0. -/
def aluShr (x y : Byte) : Byte := if y.toNat ≥ 8 then 0#8 else BitVec.ofNat 8 (x.toNat / 2 ^ y.toNat)

/-! ### Shared shapes (R80) -/

/-- A two-register instruction that writes its first: `x[a] <- f(x[a], x[b]); pc <- pc + 3`. -/
def State.aluWrite (s : State) (a b : Byte) (f : Byte → Byte → Byte) : State :=
  s.withRegs a b fun ra rb => (s.setReg ra (f (s.reg ra) (s.reg rb))).advance 3

/-- The same after the divisor's check: `x[b] = 0` raises DivisionByZero with the opcode byte (R84, R85, R127). -/
def State.aluDivide (s : State) (opcode a b : Byte) (f : Byte → Byte → Byte) : State :=
  s.withRegs a b fun ra rb =>
    if s.reg rb = 0#8 then s.raise .divisionByZero opcode.toNat
    else (s.setReg ra (f (s.reg ra) (s.reg rb))).advance 3

/-! ### The meanings -/

/-- ADD a b (R81). -/
def execAdd (a b : Byte) (s : State) : Result := .next (s.aluWrite a b aluAdd)

/-- SUB a b (R82). -/
def execSub (a b : Byte) (s : State) : Result := .next (s.aluWrite a b aluSub)

/-- MUL a b (R83). -/
def execMul (a b : Byte) (s : State) : Result := .next (s.aluWrite a b aluMul)

/-- DIV a b (R84). -/
def execDiv (a b : Byte) (s : State) : Result := .next (s.aluDivide 0xA3#8 a b aluDiv)

/-- MOD a b (R85). -/
def execMod (a b : Byte) (s : State) : Result := .next (s.aluDivide 0xA4#8 a b aluMod)

/-- AND a b (R86). -/
def execAnd (a b : Byte) (s : State) : Result := .next (s.aluWrite a b aluAnd)

/-- OR a b (R87). -/
def execOr (a b : Byte) (s : State) : Result := .next (s.aluWrite a b aluOr)

/-- XOR a b (R88). -/
def execXor (a b : Byte) (s : State) : Result := .next (s.aluWrite a b aluXor)

/-- NOT a (R89): one operand, two bytes. -/
def execNot (a : Byte) (s : State) : Result :=
  .next (s.withReg a fun ra => (s.setReg ra (aluNot (s.reg ra))).advance 2)

/-- SHL a b (R90). -/
def execShl (a b : Byte) (s : State) : Result := .next (s.aluWrite a b aluShl)

/-- SHR a b (R91). -/
def execShr (a b : Byte) (s : State) : Result := .next (s.aluWrite a b aluShr)

/-- CMP a b (R92): writes the flags, no register. -/
def execCmp (a b : Byte) (s : State) : Result :=
  .next (s.withRegs a b fun ra rb => (s.setFlags (cmpFlags (s.reg ra) (s.reg rb))).advance 3)

end Sys2Proof.Machine
end

