-- ==== Sys2Proof/Machine/Control.lean ====
section
/-! DEFINITION. The jumps: JMP, JEQ, JNE (44_control_flow.md). The register operand is checked whether or not the jump is
taken (R71, R115). -/

namespace Sys2Proof.Machine

open Sys2Proof

/-- JMP r (R116). -/
def execJmp (r : Byte) (s : State) : Result := .next (s.withReg r fun rt => s.jumpTo (s.reg rt))

/-- JEQ r (R117): reads `FL.E` only. -/
def execJeq (r : Byte) (s : State) : Result :=
  .next (s.withReg r fun rt => if s.flags.e then s.jumpTo (s.reg rt) else s.advance 2)

/-- JNE r (R118): reads `FL.E` only. -/
def execJne (r : Byte) (s : State) : Result :=
  .next (s.withReg r fun rt => if s.flags.e then s.advance 2 else s.jumpTo (s.reg rt))

end Sys2Proof.Machine
end

