-- ==== Sys2Proof/Machine/Data.lean ====
section
/-! DEFINITION. Data movement, output and halt: LDI, PRN, HLT (42_data_movement.md). -/

namespace Sys2Proof.Machine

open Sys2Proof

/-- LDI r imm (R100): the immediate is never checked. -/
def execLdi (r imm : Byte) (s : State) : Result := .next (s.withReg r fun rd => (s.setReg rd imm).advance 3)

/-- PRN r (R101): append `x[r]` to the output stream. -/
def execPrn (r : Byte) (s : State) : Result := .next (s.withReg r fun rs => (s.emit (s.reg rs)).advance 2)

/-- HLT (R102): `pc` keeps the address of the HLT byte. -/
def execHlt (s : State) : Result := .next s.halt

end Sys2Proof.Machine
end

