-- ==== Sys2Proof/Machine/Stack.lean ====
section
/-! DEFINITION. Stack and subroutines: PUSH, POP, CALL, RET (43_stack_subroutine.md). Statements run in the order of the
rule and see earlier writes (R9, D12). -/

namespace Sys2Proof.Machine

open Sys2Proof

/-- PUSH r (R106): with `r = 7` the stored value is the decremented SP. -/
def execPush (r : Byte) (s : State) : Result :=
  .next (s.withReg r fun rs => (s.push fun s' => s'.reg rs).advance 2)

/-- POP r (R107): with `r = 7` the loaded byte is then incremented. -/
def execPop (r : Byte) (s : State) : Result :=
  .next (s.withReg r fun rd => ((s.setReg rd s.top).dropTop).advance 2)

/-- CALL r (R108): a return address above 255 raises AddressOutOfRange; else push `pc + 2`, then jump to `x[r]`, which
with `r = 7` is the decremented SP. -/
def execCall (r : Byte) (s : State) : Result :=
  .next (s.withReg r fun rt =>
    let ret := s.pc.toNat + 2
    if ret > 255 then s.raise .addressOutOfRange ret
    else
      let s' := s.push fun _ => BitVec.ofNat 8 ret
      s'.jumpTo (s'.reg rt))

/-- RET (R109): pop into `pc`. -/
def execRet (s : State) : Result := .next ((s.jumpTo s.top).dropTop)

end Sys2Proof.Machine
end

