-- ==== Sys2Proof/Syntax.lean ====
section
/-! DEFINITION. The 22 instructions, in the order of the opcode table (R2, R56), and what R53 and R58 say of each as a
piece of text: its register operands and whether it sets the program counter itself. -/

namespace Sys2Proof

/-- One constructor per row of the opcode table. An operand is the whole operand byte (R53, R55): a register operand of
8..255 is kept, and its meaning raises RegisterOutOfRange (DESIGN CHOICE, safe, log 5). -/
inductive Instr where
  | ldi (r imm : Byte)
  | prn (r : Byte)
  | hlt
  | add (a b : Byte)
  | sub (a b : Byte)
  | mul (a b : Byte)
  | div (a b : Byte)
  | mod (a b : Byte)
  | push (r : Byte)
  | pop (r : Byte)
  | call (r : Byte)
  | ret
  | cmp (a b : Byte)
  | jeq (r : Byte)
  | jne (r : Byte)
  | jmp (r : Byte)
  | and (a b : Byte)
  | or (a b : Byte)
  | not (a : Byte)
  | xor (a b : Byte)
  | shl (a b : Byte)
  | shr (a b : Byte)
  deriving DecidableEq, Repr

/-- The register operands in the order they are checked, op1 then op2 (the table of R53; LDI's op2 is an immediate). -/
def Instr.regOperands : Instr → List Byte
  | .ldi r _ => [r]
  | .prn r => [r]
  | .hlt => []
  | .add a b => [a, b]
  | .sub a b => [a, b]
  | .mul a b => [a, b]
  | .div a b => [a, b]
  | .mod a b => [a, b]
  | .push r => [r]
  | .pop r => [r]
  | .call r => [r]
  | .ret => []
  | .cmp a b => [a, b]
  | .jeq r => [r]
  | .jne r => [r]
  | .jmp r => [r]
  | .and a b => [a, b]
  | .or a b => [a, b]
  | .not a => [a]
  | .xor a b => [a, b]
  | .shl a b => [a, b]
  | .shr a b => [a, b]

/-- "Sets PC itself": CALL, RET, JEQ, JNE, JMP (R58, R73). -/
def Instr.setsPc : Instr → Bool
  | .ldi _ _ => false
  | .prn _ => false
  | .hlt => false
  | .add _ _ => false
  | .sub _ _ => false
  | .mul _ _ => false
  | .div _ _ => false
  | .mod _ _ => false
  | .push _ => false
  | .pop _ => false
  | .call _ => true
  | .ret => true
  | .cmp _ _ => false
  | .jeq _ => true
  | .jne _ => true
  | .jmp _ => true
  | .and _ _ => false
  | .or _ _ => false
  | .not _ => false
  | .xor _ _ => false
  | .shl _ _ => false
  | .shr _ _ => false

end Sys2Proof
end

