-- ==== Sys2Proof/WellFormed.lean ====
section
/-! DEFINITION. Which instructions are well formed: every register operand is an index of the eight registers (R55).
Immediates have no illegal value (R60). An instruction that is not well formed still decodes and runs: it raises
RegisterOutOfRange (R71). -/

namespace Sys2Proof

/-- An operand byte that names a register (R55: "Index must be in [0,7]"). -/
def regByteOk (op : Byte) : Bool := decide (op.toNat < Config.numRegs)

/-- Every register operand names a register. -/
def Instr.wf (i : Instr) : Bool := i.regOperands.all regByteOk

/-- The operand byte RegisterOutOfRange reports: the first bad one, op1 before op2 (R71, R129). -/
def Instr.firstBadOperand (i : Instr) : Option Byte := i.regOperands.find? (fun b => !regByteOk b)

end Sys2Proof
end

