-- ==== Sys2Proof/Decode.lean ====
section
/-! DEFINITION. The decoder, total on any bytes, and the encoder, both from the opcode table of R56 (30_encoding.md). -/

namespace Sys2Proof

/-- The three shapes of an instruction (R50): the opcode alone, or one or two operand bytes after it. -/
inductive Shape where
  | op0 (i : Instr)
  | op1 (mk : Byte → Instr)
  | op2 (mk : Byte → Byte → Instr)

/-- The opcode map, row by row in the order of R56. Decoding is by the whole opcode byte (R57). -/
def opcodeTable : List (Byte × Shape) :=
  [ (0b10000010#8, .op2 .ldi),
    (0b01000111#8, .op1 .prn),
    (0b00000001#8, .op0 .hlt),
    (0b10100000#8, .op2 .add),
    (0b10100001#8, .op2 .sub),
    (0b10100010#8, .op2 .mul),
    (0b10100011#8, .op2 .div),
    (0b10100100#8, .op2 .mod),
    (0b01000101#8, .op1 .push),
    (0b01000110#8, .op1 .pop),
    (0b01010000#8, .op1 .call) ] ++
  [ (0b00010001#8, .op0 .ret),
    (0b10100111#8, .op2 .cmp),
    (0b01010101#8, .op1 .jeq),
    (0b01010110#8, .op1 .jne),
    (0b01010100#8, .op1 .jmp),
    (0b10101000#8, .op2 .and),
    (0b10101010#8, .op2 .or),
    (0b01101001#8, .op1 .not),
    (0b10101011#8, .op2 .xor),
    (0b10101100#8, .op2 .shl),
    (0b10101101#8, .op2 .shr) ]

/-- R68: compare the byte with the 22 opcode values. -/
def lookupOpcode (op : Byte) : Option Shape := opcodeTable.lookup op

/-- Bits 7:6 of the opcode byte, `N`, the operand count (R51, R69). -/
def operandCount (op : Byte) : Nat := op.toNat / 64

/-- Bit 4 of the opcode byte, `S`, "sets PC" (R51, R69). -/
def setsPcBit (op : Byte) : Bool := op.toNat / 16 % 2 == 1

/-- Why bytes are no instruction: byte `k` of it (0 the opcode) lies past the end, or the opcode is none of the 22. -/
inductive DecodeError where
  | endOfBytes (k : Nat)
  | unknownOpcode (byte : Byte)
  deriving DecidableEq, Repr

/-- The operand bytes, in ascending order (R70): the first missing one is the error. -/
def decodeOperands (sh : Shape) (bs : List Byte) : Except DecodeError (Instr × List Byte) :=
  match sh with
  | .op0 i => .ok (i, bs)
  | .op1 mk =>
    match bs with
    | [] => .error (.endOfBytes 1)
    | x :: rest => .ok (mk x, rest)
  | .op2 mk =>
    match bs with
    | [] => .error (.endOfBytes 1)
    | [_] => .error (.endOfBytes 2)
    | x :: y :: rest => .ok (mk x y, rest)

/-- Decode the instruction at the front of `bs` and give back the bytes after it. The order of the errors is that of R66:
no opcode byte, then an unknown opcode, then a missing operand. -/
def decode (bs : List Byte) : Except DecodeError (Instr × List Byte) :=
  match bs with
  | [] => .error (.endOfBytes 0)
  | op :: rest =>
    match lookupOpcode op with
    | none => .error (.unknownOpcode op)
    | some sh => decodeOperands sh rest

/-- The bytes of an instruction in memory order: the opcode of R56, then its operand bytes (R50, R61). -/
def encode : Instr → List Byte
  | .ldi r imm => [0x82#8, r, imm]
  | .prn r => [0x47#8, r]
  | .hlt => [0x01#8]
  | .add a b => [0xA0#8, a, b]
  | .sub a b => [0xA1#8, a, b]
  | .mul a b => [0xA2#8, a, b]
  | .div a b => [0xA3#8, a, b]
  | .mod a b => [0xA4#8, a, b]
  | .push r => [0x45#8, r]
  | .pop r => [0x46#8, r]
  | .call r => [0x50#8, r]
  | .ret => [0x11#8]
  | .cmp a b => [0xA7#8, a, b]
  | .jeq r => [0x55#8, r]
  | .jne r => [0x56#8, r]
  | .jmp r => [0x54#8, r]
  | .and a b => [0xA8#8, a, b]
  | .or a b => [0xAA#8, a, b]
  | .not a => [0x69#8, a]
  | .xor a b => [0xAB#8, a, b]
  | .shl a b => [0xAC#8, a, b]
  | .shr a b => [0xAD#8, a, b]

/-- The opcode byte of an instruction: the first byte of its encoding. -/
def opcodeByte (i : Instr) : Byte := (encode i).headD 0x00#8

/-- Byte `k` of an instruction given as the opcode table numbers bits: bit 0 is the lowest bit of the first byte, the
second byte is bits 15..8; bits at `nbits` and above are 0. -/
def tableByte (nbits w k : Nat) : Byte := BitVec.ofNat 8 (w % 2 ^ nbits / 256 ^ k)

/-- The bytes of such an instruction as they lie in memory, up to the longest instruction. -/
def tableBytes (nbits w : Nat) : List Byte := [tableByte nbits w 0, tableByte nbits w 1, tableByte nbits w 2]

/-- The instruction the decoder reads from a word of the opcode table. -/
def decodeTableWord (nbits w : Nat) : Option Instr :=
  match decode (tableBytes nbits w) with
  | .ok (i, _) => some i
  | .error _ => none

end Sys2Proof
end

