-- ==== Sys2Proof/Machine/Fetch.lean ====
section
/-! DEFINITION. Fetching and decoding the instruction at the program counter (R67 to R70), and placing one there. -/

namespace Sys2Proof.Machine

open Sys2Proof

/-- Up to `n` bytes from address `a` on, ending at address 255: no wrap to 0 (R16, R34). -/
def Memory.bytesFrom (m : Memory) : Nat → Nat → List Byte
  | 0, _ => []
  | n + 1, a => if a < Config.memSize then m.read a :: Memory.bytesFrom m n (a + 1) else []

/-- The instruction at `pc`, or the fault its fetch raises with its info, in the order of R66: the opcode's address, the
opcode, the operands' addresses. Reading a byte the instruction does not have is without effect (R38; log 6). -/
def State.fetch (s : State) : Except (Fault × Nat) Instr :=
  match decode (s.mem.bytesFrom Config.maxLength s.pc.toNat) with
  | .ok (i, _) => .ok i
  | .error (.endOfBytes k) => .error (.addressOutOfRange, s.pc.toNat + k)
  | .error (.unknownOpcode byte) => .error (.unknownOpcode, byte.toNat)

/-- Store bytes from address `a` on; what would lie above 255 is not stored. -/
def Memory.place (m : Memory) (a : Nat) : List Byte → Memory
  | [] => m
  | b :: bs => if a < Config.memSize then Memory.place (m.write a b) (a + 1) bs else m

end Sys2Proof.Machine
end

