-- ==== Sys2Proof/Machine/Step.lean ====
section
/-! DEFINITION. One cycle of the dispatcher (R65, R66). -/

namespace Sys2Proof.Machine

open Sys2Proof

/-- One step. While Running: fetch, decode and execute one instruction, or raise the fetch's fault. Halted and Faulted
are terminal: "no cycle is performed and no state changes until reset" (R65; V-D13, V-F21; DESIGN CHOICE, safe, log 2). -/
def step (s : State) : Host.Outcome State Fault Refusal :=
  match s.run with
  | .running =>
    match s.fetch with
    | .ok i => exec i s
    | .error (cause, info) => .next (s.raise cause info)
  | .halted => .next s
  | .faulted => .next s

/-- The state with one instruction of the opcode table placed at `pc`, where step fetches (log 7). `run` is left alone:
in a Running state whose `pc` is at most 253 the next step runs exactly that instruction. -/
def State.withFetchWord (s : State) (nbits w : Nat) : State :=
  { s with mem := s.mem.place s.pc.toNat (tableBytes nbits w) }

end Sys2Proof.Machine
end

