-- ==== Sys2Proof/Machine/Boundary.lean ====
section
/-! DEFINITION. The core's boundary with the host (R27): `Reset(IMAGE)`, the status, and the text the host makes of the
output stream. The fourth interface, `Out`, is `State.emit`; the memory interface is `Memory.read` and `Memory.write`. -/

namespace Sys2Proof.Machine

open Sys2Proof

/-- A value an image may hold (R153: "each an integer 0..255"). -/
def imageValueOk (v : Int) : Bool := decide (0 ≤ v) && decide (v ≤ 255)

/-- `Reset(IMAGE)` (R150, R153): the reset state with the image from address 0; an image that is too long or holds a
value outside 0..255 is refused, since it is no launch state. The image is an argument of a run (R7, D19). Which refusal
an illegal image gets is the model's own (DESIGN CHOICE, safe, log 10), and so is reset being no step (log 9). -/
def State.resetWith (image : List Int) : Result :=
  if image.length > Config.memSize then .refused (.imageTooLong image.length)
  else
    match image.find? (fun v => !imageValueOk v) with
    | some v => .refused (.imageValueNotAByte v)
    | none => .next { State.reset with mem := Memory.place [] 0 (image.map (BitVec.ofInt 8)) }

/-- The status interface (R27): the fault record, which has a meaning only while Faulted (R23). -/
def State.faultReport (s : State) : Option FaultRecord :=
  match s.run with
  | .running => none
  | .halted => none
  | .faulted => s.fault

/-- A decimal digit's character. -/
def digitChar (n : Nat) : Char := Char.ofNat (48 + n % 10)

/-- The decimal numeral of a byte, without sign, leading zeros or padding (R101). -/
def decimal (v : Byte) : List Char :=
  let n := v.toNat
  if n < 10 then [digitChar n]
  else if n < 100 then [digitChar (n / 10), digitChar n]
  else [digitChar (n / 100), digitChar (n / 10), digitChar n]

/-- The host's rendering of the output stream: each element's numeral and one LF, 0x0A (R101, D16; log 11). -/
def State.hostText (s : State) : List Char := s.out.flatMap fun v => decimal v ++ [Char.ofNat 0x0A]

end Sys2Proof.Machine
end

