-- ==== Sys2Proof/Safety.lean ====
section
/-! DEFINITION. The terms claims are stated in: the invariant of the state, what a frame leaves unchanged, and the fault
order of R132 written out on its own, beside the model and not from it. -/

namespace Sys2Proof.Machine

open Sys2Proof

/-! ### The invariant -/

/-- At most one flag is 1: all three are 0 before the first CMP, exactly one is 1 after it (R20). -/
def Flags.atMostOne (f : Flags) : Prop := ¬ (f.e ∧ f.g) ∧ ¬ (f.e ∧ f.l) ∧ ¬ (f.g ∧ f.l)

/-- The record of a Faulted state fits the state it was taken in (R23, R126 to R129): `fpc` is `pc`, which the fault left
alone, and `info` is what R23 lists for the cause. -/
def State.recordFits (s : State) (r : FaultRecord) : Prop :=
  r.fpc = s.pc ∧
  match r.cause with
  | .unknownOpcode =>
      s.pc.toNat ≤ 255 ∧ r.info = (s.mem.read s.pc.toNat).toNat ∧ lookupOpcode (s.mem.read s.pc.toNat) = none
  | .divisionByZero => r.info = (s.mem.read s.pc.toNat).toNat ∧ (r.info = 0xA3 ∨ r.info = 0xA4)
  | .addressOutOfRange => r.info = 256
  | .registerOutOfRange => 8 ≤ r.info ∧ r.info ≤ 255

/-- What holds of every state a run reaches: memory in its canonical form, `pc` in 0..256 (R18), at most one flag (R20),
a fault record exactly when Faulted, and one that fits (R22, R23). -/
structure State.Inv (s : State) : Prop where
  mem_wf   : s.mem.wf = true
  pc_range : s.pc.toNat ≤ 256
  flags_ok : s.flags.atMostOne
  record   : s.fault.isSome = true ↔ s.run = .faulted
  fits     : ∀ r, s.fault = some r → s.recordFits r

/-- A safe state: no fault has been raised (R22). A next state alone does not say this, since a fault is a next state. -/
def State.Safe (s : State) : Prop := s.run ≠ .faulted

/-! ### Frames -/

/-- Every register outside the list is unchanged. -/
def RegsKeptBut (regs : List RegIdx) (s t : State) : Prop := ∀ r, r ∉ regs → t.reg r = s.reg r

/-- Every byte of memory outside the listed addresses reads as before. -/
def MemKeptBut (addrs : List Nat) (s t : State) : Prop := ∀ a, a ∉ addrs → t.mem.read a = s.mem.read a

/-- Nothing changes but the listed registers, the bytes at the listed addresses, and `pc`, of which this says nothing:
flags, output stream, run state and fault record are unchanged. -/
def OnlyWrites (regs : List RegIdx) (addrs : List Nat) (s t : State) : Prop :=
  RegsKeptBut regs s t ∧ MemKeptBut addrs s t ∧
  t.flags = s.flags ∧ t.out = s.out ∧ t.run = s.run ∧ t.fault = s.fault

/-! ### Faults -/

/-- The state a fault leaves (R131): Faulted with its record, everything else as it was. -/
def State.stopped (s : State) (cause : Fault) (info : Nat) : State :=
  { s with run := .faulted, fault := some { cause := cause, fpc := s.pc, info := info } }

/-- The 22 defined opcode values in ascending order (R56). -/
def definedOpcodes : List Byte :=
  [0x01#8, 0x11#8, 0x45#8, 0x46#8, 0x47#8, 0x50#8, 0x54#8, 0x55#8, 0x56#8, 0x69#8, 0x82#8] ++
  [0xA0#8, 0xA1#8, 0xA2#8, 0xA3#8, 0xA4#8, 0xA7#8, 0xA8#8, 0xAA#8, 0xAB#8, 0xAC#8, 0xAD#8]

/-- The faults every instruction with operands shares (R80, R115): in a cycle, AddressOutOfRange(256) when its last
operand byte would lie above address 255; in its meaning, RegisterOutOfRange with the first register operand above 7. -/
def CommonFaults (i : Instr) : Prop :=
  (∀ s : State, s.run = .running → s.pc.toNat ≤ 255 → s.mem.read s.pc.toNat = opcodeByte i →
    255 < s.pc.toNat + operandCount (opcodeByte i) → step s = .next (s.stopped .addressOutOfRange 256)) ∧
  (∀ (s : State) (b : Byte), i.firstBadOperand = some b → exec i s = .next (s.stopped .registerOutOfRange b.toNat))

/-- What an ALU instruction that writes its first register does, for every state and both operands, the same register and
R7 among them: it completes, the result is as `post` says of the two values and it, `pc` moves by 3, nothing else
changes. With its bytes and its faults. -/
def AluWrites (mk : Byte → Byte → Instr) (opcode : Byte) (post : Byte → Byte → Byte → Prop) : Prop :=
  (∀ a b : Byte, encode (mk a b) = [opcode, a, b] ∧ CommonFaults (mk a b)) ∧
  ∀ (a b : RegIdx) (s : State), ∃ t, exec (mk (regByte a) (regByte b)) s = .next t ∧
    post (s.reg a) (s.reg b) (t.reg a) ∧ t.pc = s.pc + 3#9 ∧ OnlyWrites [a] [] s t

/-- The stack pointer after a push (R105), the address PUSH and CALL store to. -/
def pushedSp (s : State) : Byte := s.sp - 1#8

/-- The register an operand byte names, by its number, for the fault order below. -/
def State.regAt (s : State) (n : Nat) : Byte := s.regs.toList.getD n 0x00#8

/-- The fault of the cycle that begins in `s`, with its info: the first condition that holds in the order of R132. -/
def State.cycleFault (s : State) : Option (Fault × Nat) :=
  let pc := s.pc.toNat
  let ir := s.mem.read pc
  let n := operandCount ir
  let op1 := s.mem.read (pc + 1)
  let op2 := s.mem.read (pc + 2)
  if pc > 255 then some (.addressOutOfRange, pc)
  else if ir ∉ definedOpcodes then some (.unknownOpcode, ir.toNat)
  else if n ≥ 1 ∧ pc + 1 > 255 then some (.addressOutOfRange, pc + 1)
  else if n ≥ 2 ∧ pc + 2 > 255 then some (.addressOutOfRange, pc + 2)
  else if n ≥ 1 ∧ op1.toNat > 7 then some (.registerOutOfRange, op1.toNat)
  else if n ≥ 2 ∧ ir ≠ 0x82#8 ∧ op2.toNat > 7 then some (.registerOutOfRange, op2.toNat)
  else if (ir = 0xA3#8 ∨ ir = 0xA4#8) ∧ s.regAt op2.toNat = 0#8 then some (.divisionByZero, ir.toNat)
  else if ir = 0x50#8 ∧ pc + 2 > 255 then some (.addressOutOfRange, pc + 2)
  else none

end Sys2Proof.Machine
end

