-- ==== Sys2Proof/Certificates/Slice0/Obligations.lean ====
section
/-! DEFINITION. The statements about the model. "D<n>" in a docstring names the spec's own decision of
92_eei_decisions.md that the statement rests on; "log <n>" the model's own choice. A register operand is written
`regByte r`, the operand byte 0..7 that names register `r`; the bytes 8..255 are the business of
`BadRegisterOperandFaults` and of each instruction's `CommonFaults`. -/

open Sys2Proof Sys2Proof.Machine

/-! ### Encoding and decoding -/

/-- A few words of R56, one or more a family, written out bit by bit, decode to what they stand for (V-E). -/
def Obligations.TableWordsDecode : Prop :=
  decode [0b10000010#8, 0b00000011#8, 0b11111111#8] = .ok (.ldi 3#8 255#8, []) ∧
  decode [0b01000111#8, 0b00000010#8] = .ok (.prn 2#8, []) ∧
  decode [0b00000001#8] = .ok (.hlt, []) ∧
  decode [0b10100000#8, 0b00000001#8, 0b00000010#8] = .ok (.add 1#8 2#8, []) ∧
  decode [0b01101001#8, 0b00000101#8] = .ok (.not 5#8, []) ∧
  decode [0b01000101#8, 0b00000111#8] = .ok (.push 7#8, []) ∧
  decode [0b00010001#8] = .ok (.ret, []) ∧
  decode [0b01010110#8, 0b00000100#8] = .ok (.jne 4#8, [])

/-- Decoding and encoding agree, both ways, for every instruction and whatever bytes follow it: `decode` reads the
instruction `i` off the front of `bs` exactly when `bs` is `i`'s bytes followed by the rest (R50, R56, R57). -/
def Obligations.DecodeEncodeAgree : Prop :=
  ∀ (bs : List Byte) (i : Instr) (rest : List Byte), decode bs = .ok (i, rest) ↔ bs = encode i ++ rest

/-- When decoding fails, and how: no byte; an opcode that is none of the 22 (the 234 unknown ones, by D7); or operand
byte `k` of a defined opcode missing, the first that is. -/
def Obligations.DecodeFailsExactly : Prop :=
  ∀ (bs : List Byte) (e : DecodeError), decode bs = .error e ↔
    (bs = [] ∧ e = .endOfBytes 0) ∨
    (∃ op rest, bs = op :: rest ∧ op ∉ definedOpcodes ∧ e = .unknownOpcode op) ∨
    (∃ op rest, bs = op :: rest ∧ op ∈ definedOpcodes ∧ rest.length < operandCount op ∧
      e = .endOfBytes (rest.length + 1))

/-- The whole operand byte is the register index, not its low 3 bits (D10): a byte names register `r` exactly when it is
`r`'s number, and no register exactly when it is above 7. -/
def Obligations.OperandByteNamesRegister : Prop :=
  ∀ op : Byte, (∀ r : RegIdx, regIndex op = some r ↔ op.toNat = r.val) ∧ (regIndex op = none ↔ 7 < op.toNat)

/-! ### The cycle -/

/-- A step runs the decoded instruction: in a Running state whose bytes at `pc` are those of `i`, all at addresses up to
255, the step is `exec i` of that very state (`pc` still at the opcode; D14). -/
def Obligations.StepRunsDecodedInstruction : Prop :=
  ∀ (s : State) (i : Instr), s.run = .running → s.pc.toNat + (encode i).length ≤ 256 →
    (∀ (k : Nat) (h : k < (encode i).length), s.mem.read (s.pc.toNat + k) = (encode i)[k]) →
    step s = exec i s

/-- A core that is Halted or Faulted performs no cycle: its step leaves the state as it is. That the step of a stopped
core answers that state at all is the model's choice (log 2). -/
def Obligations.StoppedCoreKeepsItsState : Prop :=
  ∀ s : State, s.run ≠ .running → step s = .next s

/-- The opcode fetch above address 255 raises AddressOutOfRange with the address, in `pc` = 256 with info and `fpc` 256
(D8), and changes nothing else. -/
def Obligations.FetchPastEndFaults : Prop :=
  ∀ s : State, s.run = .running → 255 < s.pc.toNat →
    step s = .next (s.stopped .addressOutOfRange s.pc.toNat)

/-- A byte at `pc` that is none of the 22 opcodes raises UnknownOpcode with `pc` and the byte (D7), at every address, 255
among them, and changes nothing else. -/
def Obligations.UnknownOpcodeFaults : Prop :=
  ∀ s : State, s.run = .running → s.pc.toNat ≤ 255 → s.mem.read s.pc.toNat ∉ definedOpcodes →
    step s = .next (s.stopped .unknownOpcode (s.mem.read s.pc.toNat).toNat)

/-- An operand byte that would lie above address 255 raises AddressOutOfRange(256), for every opcode with operands, and
whatever the operand bytes that are there (D8, D14). -/
def Obligations.OperandPastEndFaults : Prop :=
  ∀ s : State, s.run = .running → s.pc.toNat ≤ 255 → s.mem.read s.pc.toNat ∈ definedOpcodes →
    255 < s.pc.toNat + operandCount (s.mem.read s.pc.toNat) →
    step s = .next (s.stopped .addressOutOfRange 256)

/-- A register operand above 7 raises RegisterOutOfRange with that byte, op1 before op2, in every instruction, before
any write and whether or not a jump is taken (D10, D14). -/
def Obligations.BadRegisterOperandFaults : Prop :=
  ∀ (i : Instr) (s : State),
    (∀ b, i.firstBadOperand = some b → exec i s = .next (s.stopped .registerOutOfRange b.toNat)) ∧
    (i.firstBadOperand = none ↔ i.wf = true)

/-- Which fault a cycle raises: the first condition that holds in the fixed order of R132, which `cycleFault` writes out
on its own (D14). With it, exactly `run` and the record change; without it the cycle raises none. -/
def Obligations.FaultOrder : Prop :=
  ∀ s : State, s.run = .running →
    ∃ t, step s = .next t ∧
      match s.cycleFault with
      | some (cause, info) => t = s.stopped cause info
      | none => t.run ≠ .faulted ∧ t.fault = s.fault

/-- Faults are precise and terminal (D13): a cycle that ends Faulted changed `run` and the record only, the record's
`fpc` is the `pc` before it, and every further step leaves that state as it is. -/
def Obligations.FaultsArePreciseAndTerminal : Prop :=
  ∀ s t : State, s.run = .running → step s = .next t → t.run = .faulted →
    (∃ cause info, t = s.stopped cause info) ∧ step t = .next t

/-- The machine is total (93_implementation_defined.md Part 1): every step of every state answers a next state, never a
fault or a refusal of the interface (log 1). -/
def Obligations.StepAlwaysAnswers : Prop :=
  ∀ s : State, ∃ t, step s = .next t

/-- Auto-advance: after a cycle that leaves the core Running, whose opcode has bit 4 clear, `pc` has moved by the
operand count of bits 7:6 plus 1, without wrapping, to at most 256 (D8, D15). -/
def Obligations.AutoAdvanceByOperandCount : Prop :=
  ∀ s t : State, s.run = .running → step s = .next t → t.run = .running →
    setsPcBit (s.mem.read s.pc.toNat) = false →
    t.pc.toNat = s.pc.toNat + operandCount (s.mem.read s.pc.toNat) + 1 ∧ t.pc.toNat ≤ 256

/-- Only an instruction that sets `pc` itself, or one that stops the core, can leave `pc` where it was (R77, which the spec
marks as derived). -/
def Obligations.PcStandsOnlyByJumpOrStop : Prop :=
  ∀ s t : State, s.run = .running → step s = .next t → t.run = .running → t.pc = s.pc →
    s.mem.read s.pc.toNat ∈ [0x11#8, 0x50#8, 0x54#8, 0x55#8, 0x56#8]

/-! ### Who changes what, over all instructions -/

/-- Only CMP writes flags: a step after which the flags differ ran the opcode 0xA7. -/
def Obligations.FlagsChangeOnlyByCmp : Prop :=
  ∀ s t : State, step s = .next t → t.flags ≠ s.flags → s.run = .running ∧ s.mem.read s.pc.toNat = 0xA7#8

/-- A core becomes Halted by HLT only, and HLT changes nothing else (D13, D15). -/
def Obligations.HaltedOnlyByHlt : Prop :=
  ∀ s t : State, s.run = .running → step s = .next t → t.run = .halted →
    s.mem.read s.pc.toNat = 0x01#8 ∧ t = { s with run := .halted }

/-- The output stream is extended by PRN only, by one byte, and never shortened (D16). -/
def Obligations.OutputGrowsOnlyByPrn : Prop :=
  ∀ s t : State, step s = .next t →
    t.out = s.out ∨ (s.mem.read s.pc.toNat = 0x47#8 ∧ ∃ v, t.out = s.out ++ [v])

/-- Memory is written by PUSH and CALL only, and only the byte just below the stack pointer, modulo 256 (D11): every
other byte reads as before, and after any other opcode every byte does. -/
def Obligations.MemoryChangesOnlyAtStackTop : Prop :=
  ∀ s t : State, s.Inv → step s = .next t → ∀ a : Nat, t.mem.read a ≠ s.mem.read a →
    a = (s.sp.toNat + 255) % 256 ∧ (s.mem.read s.pc.toNat = 0x45#8 ∨ s.mem.read s.pc.toNat = 0x50#8)

/-- The core never reads its output stream (D16): a state that differs only in what stands in `out` takes the same step,
and appends the same bytes. -/
def Obligations.OutputIsNeverRead : Prop :=
  ∀ (s t : State) (o : List Byte), step { s with out := [] } = .next t →
    step { s with out := o } = .next { t with out := o ++ t.out }

/-- No instruction reads `FL.G` or `FL.L`: two states that differ only in them take steps that differ in them at most. -/
def Obligations.GreaterAndLessAreNeverRead : Prop :=
  ∀ (s t : State) (g l : Bool), step s = .next t →
    ∃ g' l', step { s with flags := { s.flags with g := g, l := l } } =
      .next { t with flags := { t.flags with g := g', l := l' } }

/-! ### Reset and the invariant -/

/-- The values after reset with the empty image (R28): R0 to R6 are 0 and R7 is 0xF4, `pc` is 0, the flags are 0 (D5),
the core is Running with no fault record (D22), every cell is 0, the output stream is empty (D16). -/
def Obligations.ResetValues : Prop :=
  (∀ r : RegIdx, State.reset.reg r = if r = 7 then 0xF4#8 else 0x00#8) ∧
  State.reset.pc = 0#9 ∧ State.reset.flags = ⟨false, false, false⟩ ∧ State.reset.run = .running ∧
  State.reset.fault = none ∧ (∀ a : Nat, State.reset.mem.read a = 0x00#8) ∧ State.reset.out = []

/-- The reset state meets the invariant. -/
def Obligations.ResetMeetsInvariant : Prop := State.reset.Inv

/-- Every step keeps the invariant: canonical memory, `pc` in 0..256, at most one flag, a fault record exactly when
Faulted and one that fits (D8, D4, D13, D22; the canonical form is the model's own, log 8). -/
def Obligations.StepKeepsInvariant : Prop :=
  ∀ s t : State, s.Inv → step s = .next t → t.Inv

/-- `Reset(IMAGE)` for a legal image (D18, D19): the invariant holds, memory is the image from address 0 and 0 beyond
it, and everything else is as after reset with the empty image. -/
def Obligations.ResetLoadsImage : Prop :=
  ∀ image : List Int, image.length ≤ 256 → (∀ v ∈ image, 0 ≤ v ∧ v ≤ 255) →
    ∃ t, State.resetWith image = .next t ∧ t.Inv ∧
      (∀ (a : Nat) (h : a < image.length), ((t.mem.read a).toNat : Int) = image[a]) ∧
      (∀ a : Nat, image.length ≤ a → t.mem.read a = 0x00#8) ∧
      t.regs = State.reset.regs ∧ t.pc = 0#9 ∧ t.flags = State.reset.flags ∧ t.run = .running ∧
      t.fault = none ∧ t.out = []

/-- An image that is too long, or holds a value outside 0..255, is refused: it is no launch state (D19). Which refusal it
gets is the model's choice (log 10): its length, whatever it holds, when it is too long; else one of its bad values. -/
def Obligations.IllegalImageRefused : Prop :=
  ∀ image : List Int, (256 < image.length → State.resetWith image = .refused (.imageTooLong image.length)) ∧
    (image.length ≤ 256 → ∀ v ∈ image, v < 0 ∨ 255 < v →
      ∃ w ∈ image, (w < 0 ∨ 255 < w) ∧ State.resetWith image = .refused (.imageValueNotAByte w))

/-! ### Data movement, output, halt -/

/-- LDI r imm, whole: its bytes; it completes in every state, `x[r]` gets the immediate, whatever it is, `pc` moves by 3,
nothing else changes; its faults. -/
def Obligations.LdiLoadsImmediate : Prop :=
  (∀ r imm : Byte, encode (.ldi r imm) = [0x82#8, r, imm] ∧ CommonFaults (.ldi r imm)) ∧
  ∀ (r : RegIdx) (imm : Byte) (s : State), ∃ t, exec (.ldi (regByte r) imm) s = .next t ∧
    t.reg r = imm ∧ t.pc = s.pc + 3#9 ∧ OnlyWrites [r] [] s t

/-- PRN r, whole: its bytes; it completes in every state, `out` gets `x[r]` appended, `pc` moves by 2, nothing else
changes; its faults, which emit nothing. The host's text of the stream is its elements' numerals, one LF after each
(D16). -/
def Obligations.PrnAppendsRegister : Prop :=
  (∀ r : Byte, encode (.prn r) = [0x47#8, r] ∧ CommonFaults (.prn r)) ∧
  ∀ (r : RegIdx) (s : State), ∃ t, exec (.prn (regByte r)) s = .next t ∧
    t.out = s.out ++ [s.reg r] ∧ t.hostText = s.hostText ++ decimal (s.reg r) ++ ['\n'] ∧ t.pc = s.pc + 2#9 ∧
    RegsKeptBut [] s t ∧ MemKeptBut [] s t ∧ t.flags = s.flags ∧ t.run = s.run ∧ t.fault = s.fault

/-- The numeral the host prints for a byte (R101, D16): its decimal digits, most significant first, no leading zero. -/
def Obligations.DecimalNumeralOfByte : Prop :=
  ∀ v : Byte, decimal v = Nat.toDigits 10 v.toNat

/-- HLT, whole: its byte; it completes in every state, `run` becomes Halted and nothing else changes, `pc` among the rest
(D15). -/
def Obligations.HltHalts : Prop :=
  encode .hlt = [0x01#8] ∧ ∀ s : State, exec .hlt s = .next { s with run := .halted }

/-! ### ALU -/

/-- ADD, SUB and MUL keep the exact result modulo 256 (D1), `mod` never negative. -/
def Obligations.AddSubMulWrapModulo256 : Prop :=
  AluWrites .add 0xA0#8 (fun x y r => r.toNat = (x.toNat + y.toNat) % 256) ∧
  AluWrites .sub 0xA1#8 (fun x y r => (r.toNat : Int) = ((x.toNat : Int) - (y.toNat : Int)) % 256) ∧
  AluWrites .mul 0xA2#8 (fun x y r => r.toNat = (x.toNat * y.toNat) % 256)

/-- DIV and MOD by a register that is not 0 (D2): they complete in every such state, with the unsigned quotient rounded
down and the unsigned remainder, the one pair with x = q * y + m and m < y. -/
def Obligations.DivModUnsigned : Prop :=
  (∀ a b : Byte, encode (.div a b) = [0xA3#8, a, b] ∧ CommonFaults (.div a b)) ∧
  (∀ a b : Byte, encode (.mod a b) = [0xA4#8, a, b] ∧ CommonFaults (.mod a b)) ∧
  ∀ (a b : RegIdx) (s : State), s.reg b ≠ 0#8 → ∃ q m,
    exec (.div (regByte a) (regByte b)) s = .next q ∧ exec (.mod (regByte a) (regByte b)) s = .next m ∧
    (s.reg a).toNat = (q.reg a).toNat * (s.reg b).toNat + (m.reg a).toNat ∧ (m.reg a).toNat < (s.reg b).toNat ∧
    q.pc = s.pc + 3#9 ∧ OnlyWrites [a] [] s q ∧ m.pc = s.pc + 3#9 ∧ OnlyWrites [a] [] s m

/-- DIV and MOD by a register that is 0, the dividend's own among them, raise DivisionByZero with the opcode byte as info
(D22) and change nothing else: no quotient is written. -/
def Obligations.DivisionByZeroFaults : Prop :=
  ∀ (a b : RegIdx) (s : State), s.reg b = 0#8 →
    exec (.div (regByte a) (regByte b)) s = .next (s.stopped .divisionByZero 0xA3) ∧
    exec (.mod (regByte a) (regByte b)) s = .next (s.stopped .divisionByZero 0xA4)

/-- AND, OR and XOR, whole, bit by bit. -/
def Obligations.AndOrXorBitwise : Prop :=
  AluWrites .and 0xA8#8 (fun x y r => ∀ k, k < 8 → r.getLsbD k = (x.getLsbD k && y.getLsbD k)) ∧
  AluWrites .or 0xAA#8 (fun x y r => ∀ k, k < 8 → r.getLsbD k = (x.getLsbD k || y.getLsbD k)) ∧
  AluWrites .xor 0xAB#8 (fun x y r => ∀ k, k < 8 → r.getLsbD k = (x.getLsbD k != y.getLsbD k))

/-- NOT a, whole: 255 minus the value, every bit inverted, within 8 bits (D1); `pc` moves by 2, nothing else changes. -/
def Obligations.NotInvertsEveryBit : Prop :=
  (∀ a : Byte, encode (.not a) = [0x69#8, a] ∧ CommonFaults (.not a)) ∧
  ∀ (a : RegIdx) (s : State), ∃ t, exec (.not (regByte a)) s = .next t ∧
    (t.reg a).toNat = 255 - (s.reg a).toNat ∧ (∀ k, k < 8 → (t.reg a).getLsbD k = !(s.reg a).getLsbD k) ∧
    t.pc = s.pc + 2#9 ∧ OnlyWrites [a] [] s t

/-- SHL and SHR (D3): logical shifts by the whole byte, 8 or more gives 0. -/
def Obligations.ShiftsAreLogical : Prop :=
  AluWrites .shl 0xAC#8 (fun x y r =>
    (y.toNat ≥ 8 → r = 0#8) ∧ (y.toNat < 8 → r.toNat = (x.toNat * 2 ^ y.toNat) % 256)) ∧
  AluWrites .shr 0xAD#8 (fun x y r =>
    (y.toNat ≥ 8 → r = 0#8) ∧ (y.toNat < 8 → r.toNat = x.toNat / 2 ^ y.toNat))

/-- CMP a b, whole (D4): it completes in every state, each flag is its comparison of the unsigned values, exactly one is
1, `pc` moves by 3, registers and memory are unchanged. -/
def Obligations.CmpSetsExactlyOneFlag : Prop :=
  (∀ a b : Byte, encode (.cmp a b) = [0xA7#8, a, b] ∧ CommonFaults (.cmp a b)) ∧
  ∀ (a b : RegIdx) (s : State), ∃ t, exec (.cmp (regByte a) (regByte b)) s = .next t ∧
    (t.flags.e = true ↔ (s.reg a).toNat = (s.reg b).toNat) ∧
    (t.flags.g = true ↔ (s.reg a).toNat > (s.reg b).toNat) ∧
    (t.flags.l = true ↔ (s.reg a).toNat < (s.reg b).toNat) ∧
    [t.flags.e, t.flags.g, t.flags.l].count true = 1 ∧
    t.pc = s.pc + 3#9 ∧ RegsKeptBut [] s t ∧ MemKeptBut [] s t ∧
    t.out = s.out ∧ t.run = s.run ∧ t.fault = s.fault

/-! ### Stack and subroutines -/

/-- PUSH r, whole: SP goes down by one, then the byte at the new SP is `x[r]`, for R7 the new SP itself (D12); `pc`
moves by 2; every other register and byte is unchanged. Memory's canonical form is the one premise. -/
def Obligations.PushStoresBelowSp : Prop :=
  (∀ r : Byte, encode (.push r) = [0x45#8, r] ∧ CommonFaults (.push r)) ∧
  ∀ (r : RegIdx) (s : State), s.mem.wf = true → ∃ t, exec (.push (regByte r)) s = .next t ∧
    t.reg 7 = pushedSp s ∧ (pushedSp s).toNat = ((s.reg 7).toNat + 255) % 256 ∧
    t.mem.read (pushedSp s).toNat = (if r = 7 then pushedSp s else s.reg r) ∧
    t.pc = s.pc + 2#9 ∧ OnlyWrites [7] [(pushedSp s).toNat] s t

/-- POP r, whole: `x[r]` gets the byte at SP, then SP goes up by one, modulo 256 (D11); for R7 the loaded byte is then
incremented (D12); `pc` moves by 2; memory is unchanged. -/
def Obligations.PopLoadsFromSp : Prop :=
  (∀ r : Byte, encode (.pop r) = [0x46#8, r] ∧ CommonFaults (.pop r)) ∧
  ∀ (r : RegIdx) (s : State), ∃ t, exec (.pop (regByte r)) s = .next t ∧
    (r ≠ 7 → t.reg r = s.mem.read (s.reg 7).toNat ∧ (t.reg 7).toNat = ((s.reg 7).toNat + 1) % 256) ∧
    (r = 7 → (t.reg 7).toNat = ((s.mem.read (s.reg 7).toNat).toNat + 1) % 256) ∧
    t.pc = s.pc + 2#9 ∧ OnlyWrites [r, 7] [] s t

/-- CALL r where the return address fits a byte: SP goes down by one, `pc + 2` is stored at the new SP, then `pc` is
`x[r]`, for R7 the new SP (D12); nothing else changes. With its bytes and the faults it shares. -/
def Obligations.CallPushesReturnAddress : Prop :=
  (∀ r : Byte, encode (.call r) = [0x50#8, r] ∧ CommonFaults (.call r)) ∧
  ∀ (r : RegIdx) (s : State), s.mem.wf = true → s.pc.toNat + 2 ≤ 255 →
    ∃ t, exec (.call (regByte r)) s = .next t ∧
      t.reg 7 = pushedSp s ∧ (pushedSp s).toNat = ((s.reg 7).toNat + 255) % 256 ∧
      (t.mem.read (pushedSp s).toNat).toNat = s.pc.toNat + 2 ∧
      t.pc.toNat = (if r = 7 then pushedSp s else s.reg r).toNat ∧ OnlyWrites [7] [(pushedSp s).toNat] s t

/-- CALL whose return address is above 255 raises AddressOutOfRange with that address, 256 at `pc` = 254, before any
write (D9). -/
def Obligations.CallReturnAddressFaults : Prop :=
  ∀ (r : RegIdx) (s : State), 255 < s.pc.toNat + 2 →
    exec (.call (regByte r)) s = .next (s.stopped .addressOutOfRange (s.pc.toNat + 2))

/-- RET, whole: its byte; it completes in every state, `pc` gets the byte at SP, SP goes up by one modulo 256, nothing
else changes. -/
def Obligations.RetPopsPc : Prop :=
  encode .ret = [0x11#8] ∧
  ∀ s : State, ∃ t, exec .ret s = .next t ∧
    t.pc.toNat = (s.mem.read (s.reg 7).toNat).toNat ∧ (t.reg 7).toNat = ((s.reg 7).toNat + 1) % 256 ∧
    OnlyWrites [7] [] s t

/-! ### Jumps -/

/-- JMP r, whole: `pc` is the whole byte `x[r]`; nothing else changes. -/
def Obligations.JmpGoesToRegister : Prop :=
  (∀ r : Byte, encode (.jmp r) = [0x54#8, r] ∧ CommonFaults (.jmp r)) ∧
  ∀ (r : RegIdx) (s : State), ∃ t, exec (.jmp (regByte r)) s = .next t ∧
    t.pc.toNat = (s.reg r).toNat ∧ OnlyWrites [] [] s t

/-- JEQ r and JNE r, whole: with the Equal flag as the instruction wants it `pc` is `x[r]`, else it moves by 2; they read
no other flag, and nothing else changes. -/
def Obligations.JeqJneFollowEqualFlag : Prop :=
  (∀ r : Byte, encode (.jeq r) = [0x55#8, r] ∧ CommonFaults (.jeq r)) ∧
  (∀ r : Byte, encode (.jne r) = [0x56#8, r] ∧ CommonFaults (.jne r)) ∧
  ∀ (r : RegIdx) (s : State), ∃ t u,
    exec (.jeq (regByte r)) s = .next t ∧ exec (.jne (regByte r)) s = .next u ∧
    (s.flags.e = true → t.pc.toNat = (s.reg r).toNat ∧ u.pc = s.pc + 2#9) ∧
    (s.flags.e = false → t.pc = s.pc + 2#9 ∧ u.pc.toNat = (s.reg r).toNat) ∧
    OnlyWrites [] [] s t ∧ OnlyWrites [] [] s u

/-! ### Laws of two instructions -/

/-- SUB undoes ADD of the same second register, when the two differ (D1; R82). -/
def Obligations.SubUndoesAdd : Prop :=
  ∀ (a b : RegIdx) (s t u : State), a ≠ b → exec (.add (regByte a) (regByte b)) s = .next t →
    exec (.sub (regByte a) (regByte b)) t = .next u → u.regs = s.regs

/-- PUSH then POP of one register leaves every register as it was, SP among them, R7 itself too (R107; D11, D12). -/
def Obligations.PopUndoesPush : Prop :=
  ∀ (r : RegIdx) (s t u : State), s.mem.wf = true → exec (.push (regByte r)) s = .next t →
    exec (.pop (regByte r)) t = .next u → u.regs = s.regs

/-- CALL then RET brings `pc` to the byte after the CALL's two and restores every register, SP among them (R108, R109;
D9). The premises: memory in its canonical form and a return address that fits a byte. -/
def Obligations.RetReturnsAfterCall : Prop :=
  ∀ (r : RegIdx) (s t u : State), s.mem.wf = true → s.pc.toNat + 2 ≤ 255 →
    exec (.call (regByte r)) s = .next t → exec .ret t = .next u →
    u.pc.toNat = s.pc.toNat + 2 ∧ u.regs = s.regs ∧ u.flags = s.flags

/-- A byte stored by PUSH is what the very next cycle fetches, with no fence (R44), whatever stood there before: a PUSH
that stores just where the next instruction starts is followed by a cycle that halts if the byte is HLT's opcode, and that
raises UnknownOpcode with the byte if it is no opcode (D7). -/
def Obligations.StoredByteIsFetchedNext : Prop :=
  ∀ (r : RegIdx) (s t : State) (v : Byte), s.mem.wf = true → s.run = .running →
    exec (.push (regByte r)) s = .next t → (pushedSp s).toNat = s.pc.toNat + 2 →
    v = (if r = 7 then pushedSp s else s.reg r) →
    (v = 0x01#8 → step t = .next { t with run := .halted }) ∧
    (v ∉ definedOpcodes → step t = .next (t.stopped .unknownOpcode v.toNat))
end

