-- ==== Sys2Proof/Laws/Operands.lean ====
section
/-! SUPPORT. The register-index check: which bytes pass, and everything the check of one or two operands can do. -/

namespace Sys2Proof.Machine

open Sys2Proof

@[simp] theorem regIndex_regByte (r : RegIdx) : regIndex (regByte r) = some r := by
  revert r; decide

theorem regByte_of_regIndex {op : Byte} {r : RegIdx} (h : regIndex op = some r) : op = regByte r := by
  unfold regIndex at h
  split at h
  · cases h; simp [regByte]
  · cases h

theorem regIndex_isNone {op : Byte} (h : regIndex op = none) : 7 < op.toNat := by
  unfold regIndex at h
  split at h
  · cases h
  · omega

theorem regIndex_of_gt {op : Byte} (h : 7 < op.toNat) : regIndex op = none := by
  simp [regIndex, show ¬ op.toNat < 8 by omega]

@[simp] theorem regByte_toNat (r : RegIdx) : (regByte r).toNat = r.val := by
  revert r; decide

@[simp] theorem regByteOk_regByte (r : RegIdx) : regByteOk (regByte r) = true := by
  revert r; decide

theorem regByteOk_eq_false {op : Byte} : regByteOk op = false ↔ 7 < op.toNat := by
  rw [regByteOk, decide_eq_false_iff_not]
  exact Nat.not_lt

@[simp] theorem State.withReg_regByte (s : State) (r : RegIdx) (k : RegIdx → State) :
    s.withReg (regByte r) k = k r := by
  simp [State.withReg]

@[simp] theorem State.withRegs_regByte (s : State) (a b : RegIdx) (k : RegIdx → RegIdx → State) :
    s.withRegs (regByte a) (regByte b) k = k a b := by
  simp [State.withRegs]

theorem State.withReg_bad (s : State) {op : Byte} (h : 7 < op.toNat) (k : RegIdx → State) :
    s.withReg op k = s.raise .registerOutOfRange op.toNat := by
  simp [State.withReg, regIndex_of_gt h]

/-- The check of one operand: the rest of the instruction with the register it names, or the fault. -/
theorem State.withReg_cases (s : State) (op : Byte) (k : RegIdx → State) :
    (∃ r, op = regByte r ∧ s.withReg op k = k r) ∨
      (7 < op.toNat ∧ s.withReg op k = s.raise .registerOutOfRange op.toNat) := by
  cases h : regIndex op with
  | some r => exact .inl ⟨r, regByte_of_regIndex h, by simp [State.withReg, h]⟩
  | none => exact .inr ⟨regIndex_isNone h, by simp [State.withReg, h]⟩

/-- The check of two operands: both name registers, or the first bad one, op1 before op2, is the fault's info. -/
theorem State.withRegs_cases (s : State) (op1 op2 : Byte) (k : RegIdx → RegIdx → State) :
    (∃ a b, op1 = regByte a ∧ op2 = regByte b ∧ s.withRegs op1 op2 k = k a b) ∨
      (7 < op1.toNat ∧ s.withRegs op1 op2 k = s.raise .registerOutOfRange op1.toNat) ∨
      (∃ a, op1 = regByte a ∧ 7 < op2.toNat ∧
        s.withRegs op1 op2 k = s.raise .registerOutOfRange op2.toNat) := by
  rcases s.withReg_cases op1 (fun a => s.withReg op2 fun b => k a b) with ⟨a, ha, he⟩ | ⟨h, he⟩
  · rcases s.withReg_cases op2 (fun b => k a b) with ⟨b, hb, he'⟩ | ⟨h', he'⟩
    · exact .inl ⟨a, b, ha, hb, by rw [State.withRegs, he, he']⟩
    · exact .inr (.inr ⟨a, ha, h', by rw [State.withRegs, he, he']⟩)
  · exact .inr (.inl ⟨h, by rw [State.withRegs, he]⟩)

end Sys2Proof.Machine
end

