-- ==== Sys2Proof/Laws/Alu.lean ====
section
/-! SUPPORT. The ALU's shared shapes, everything each can do, and its results as numbers. -/

namespace Sys2Proof.Machine

open Sys2Proof

/-! ### The two shapes -/

@[simp] theorem State.aluWrite_regByte (s : State) (a b : RegIdx) (f : Byte → Byte → Byte) :
    s.aluWrite (regByte a) (regByte b) f = (s.setReg a (f (s.reg a) (s.reg b))).advance 3 := by
  simp [State.aluWrite]

/-- A write completes on two registers, or reports the first bad operand byte. -/
theorem State.aluWrite_cases (s : State) (x y : Byte) (f : Byte → Byte → Byte) :
    (∃ a b, x = regByte a ∧ y = regByte b ∧ s.aluWrite x y f = (s.setReg a (f (s.reg a) (s.reg b))).advance 3) ∨
      (7 < x.toNat ∧ s.aluWrite x y f = s.raise .registerOutOfRange x.toNat) ∨
      (∃ a, x = regByte a ∧ 7 < y.toNat ∧ s.aluWrite x y f = s.raise .registerOutOfRange y.toNat) :=
  s.withRegs_cases x y _

@[simp] theorem State.aluDivide_regByte (s : State) (opcode : Byte) (a b : RegIdx) (f : Byte → Byte → Byte) :
    s.aluDivide opcode (regByte a) (regByte b) f =
      if s.reg b = 0#8 then s.raise .divisionByZero opcode.toNat
      else (s.setReg a (f (s.reg a) (s.reg b))).advance 3 := by
  simp [State.aluDivide]

/-- A division completes on a divisor that is not 0, faults on one that is, or reports the first bad operand byte. -/
theorem State.aluDivide_cases (s : State) (opcode x y : Byte) (f : Byte → Byte → Byte) :
    (∃ a b, x = regByte a ∧ y = regByte b ∧ s.reg b ≠ 0#8 ∧
        s.aluDivide opcode x y f = (s.setReg a (f (s.reg a) (s.reg b))).advance 3) ∨
      (∃ a b, x = regByte a ∧ y = regByte b ∧ s.reg b = 0#8 ∧
        s.aluDivide opcode x y f = s.raise .divisionByZero opcode.toNat) ∨
      (7 < x.toNat ∧ s.aluDivide opcode x y f = s.raise .registerOutOfRange x.toNat) ∨
      (∃ a, x = regByte a ∧ 7 < y.toNat ∧ s.aluDivide opcode x y f = s.raise .registerOutOfRange y.toNat) := by
  rcases s.withRegs_cases x y (fun ra rb =>
      if s.reg rb = 0#8 then s.raise .divisionByZero opcode.toNat
      else (s.setReg ra (f (s.reg ra) (s.reg rb))).advance 3) with ⟨a, b, hx, hy, he⟩ | h | h
  · by_cases hz : s.reg b = 0#8
    · exact .inr (.inl ⟨a, b, hx, hy, hz, he.trans (if_pos hz)⟩)
    · exact .inl ⟨a, b, hx, hy, hz, he.trans (if_neg hz)⟩
  · exact .inr (.inr (.inl h))
  · exact .inr (.inr (.inr h))

/-! ### The results as numbers (R81 to R91) -/

theorem aluAdd_toNat (x y : Byte) : (aluAdd x y).toNat = (x.toNat + y.toNat) % 256 := by simp [aluAdd]

theorem aluSub_toNat (x y : Byte) : ((aluSub x y).toNat : Int) = ((x.toNat : Int) - (y.toNat : Int)) % 256 := by
  simp only [aluSub, BitVec.toNat_ofInt]
  omega

theorem aluMul_toNat (x y : Byte) : (aluMul x y).toNat = (x.toNat * y.toNat) % 256 := by simp [aluMul]

theorem aluDiv_toNat (x y : Byte) : (aluDiv x y).toNat = x.toNat / y.toNat := by
  have := Nat.div_le_self x.toNat y.toNat
  simp only [aluDiv, BitVec.toNat_ofNat]
  exact Nat.mod_eq_of_lt (by omega)

theorem aluMod_toNat (x y : Byte) : (aluMod x y).toNat = x.toNat % y.toNat := by
  have := Nat.mod_le x.toNat y.toNat
  simp only [aluMod, BitVec.toNat_ofNat]
  exact Nat.mod_eq_of_lt (by omega)

theorem aluNot_toNat (x : Byte) : (aluNot x).toNat = 255 - x.toNat := by
  simp only [aluNot, BitVec.toNat_ofNat]
  exact Nat.mod_eq_of_lt (by omega)

end Sys2Proof.Machine
end

