-- ==== Sys2Proof/Laws/Decode.lean ====
section
/-! SUPPORT. The opcode map's lemmas: a byte that is found is a row of the table, and decoding the operands of a shape. -/

namespace Sys2Proof

/-- A found opcode is a row of the table. -/
theorem mem_opcodeTable_of_lookup {op : Byte} {sh : Shape} (h : lookupOpcode op = some sh) :
    (op, sh) ∈ opcodeTable := by
  unfold lookupOpcode at h
  obtain ⟨l₁, l₂, hl, -⟩ := List.lookup_eq_some_iff.mp h
  rw [hl]
  simp

/-- An opcode that is not found is no row's. -/
theorem lookupOpcode_eq_none {op : Byte} : lookupOpcode op = none ↔ ∀ row ∈ opcodeTable, op ≠ row.1 := by
  unfold lookupOpcode
  rw [List.lookup_eq_none_iff]
  simp

/-- The instruction a row makes, when its shape finds its operand bytes. -/
theorem decodeOperands_eq_ok {sh : Shape} {bs : List Byte} {i : Instr} {rest : List Byte} :
    decodeOperands sh bs = .ok (i, rest) ↔
      (sh = .op0 i ∧ bs = rest) ∨
      (∃ mk x, sh = .op1 mk ∧ bs = x :: rest ∧ mk x = i) ∨
      (∃ mk x y, sh = .op2 mk ∧ bs = x :: y :: rest ∧ mk x y = i) := by
  cases sh with
  | op0 j => simp [decodeOperands]
  | op1 mk =>
    cases bs with
    | nil => simp [decodeOperands]
    | cons x bs => simp only [decodeOperands, Except.ok.injEq, Prod.mk.injEq]; aesop
  | op2 mk =>
    match bs with
    | [] => simp [decodeOperands]
    | [x] => simp [decodeOperands]
    | x :: y :: bs => simp only [decodeOperands, Except.ok.injEq, Prod.mk.injEq]; aesop

/-- Decoding at least one byte: look the opcode up, then read its operands. -/
theorem decode_cons (op : Byte) (bs : List Byte) :
    decode (op :: bs) =
      match lookupOpcode op with
      | none => .error (.unknownOpcode op)
      | some sh => decodeOperands sh bs := rfl

end Sys2Proof
end

