-- ==== Sys2Proof/Laws/Memory.lean ====
section
/-! SUPPORT. The laws of memory: what a read after a write gives, that every operation keeps the canonical form, and that
equal readings are equal lists. -/

namespace Sys2Proof.Machine

open Sys2Proof

/-! ### The canonical form -/

theorem Memory.wfFrom_cons {lo k : Nat} {v : Byte} {m : Memory} :
    Memory.wfFrom lo ((k, v) :: m) = true ↔
      lo ≤ k ∧ k < 256 ∧ v ≠ 0#8 ∧ Memory.wfFrom (k + 1) m = true := by
  simp only [Memory.wfFrom, Bool.and_eq_true, decide_eq_true_eq, and_assoc]
  rfl

theorem Memory.wfFrom_mono {lo lo' : Nat} {m : Memory} (hle : lo ≤ lo') (h : Memory.wfFrom lo' m = true) :
    Memory.wfFrom lo m = true := by
  cases m with
  | nil => rfl
  | cons c m =>
    obtain ⟨k, v⟩ := c
    rw [Memory.wfFrom_cons] at h ⊢
    exact ⟨by omega, h.2⟩

/-- Below the first address a memory lists, every cell reads as 0. -/
theorem Memory.read_below {lo a : Nat} {m : Memory} (h : Memory.wfFrom lo m = true) (ha : a < lo) :
    m.read a = 0#8 := by
  induction m generalizing lo with
  | nil => rfl
  | cons c m ih =>
    obtain ⟨k, v⟩ := c
    rw [Memory.wfFrom_cons] at h
    have hk : k ≠ a := by omega
    simp only [Memory.read, hk, if_false]
    exact ih h.2.2.2 (by omega)

/-! ### Reading after writing (R32, R33, R41) -/

theorem Memory.read_write {lo : Nat} {m : Memory} (h : Memory.wfFrom lo m = true) (a : Nat) (v : Byte) (b : Nat) :
    (m.write a v).read b = if b = a then v else m.read b := by
  induction m generalizing lo with
  | nil =>
    by_cases hb : b = a
    · by_cases hv : v = Config.unlistedByte <;> simp [Memory.write, Memory.read, hv, hb]
    · by_cases hv : v = Config.unlistedByte <;> simp [Memory.write, Memory.read, hv, hb, Ne.symm hb]
  | cons c m ih =>
    obtain ⟨k, w⟩ := c
    rw [Memory.wfFrom_cons] at h
    have hbelow : ∀ x, x < k + 1 → Memory.read m x = Config.unlistedByte :=
      fun x hx => Memory.read_below h.2.2.2 hx
    have ih := ih h.2.2.2
    rcases Nat.lt_trichotomy a k with hak | hak | hak
    · have hka : k ≠ a := by omega
      by_cases hv : v = Config.unlistedByte <;> by_cases hb : b = a
      · simp [Memory.write, Memory.read, hak, hv, hb, hka, hbelow a (by omega)]
      · simp [Memory.write, hak, hv, hb]
      · simp [Memory.write, Memory.read, hak, hv, hb]
      · simp [Memory.write, Memory.read, hak, hv, hb, Ne.symm hb]
    · subst hak
      by_cases hv : v = Config.unlistedByte <;> by_cases hb : b = a
      · simp [Memory.write, hv, hb, hbelow a (by omega)]
      · simp [Memory.write, Memory.read, hv, hb, Ne.symm hb]
      · simp [Memory.write, Memory.read, hv, hb]
      · simp [Memory.write, Memory.read, hv, hb, Ne.symm hb]
    · have h1 : ¬ a < k := by omega
      have h2 : a ≠ k := by omega
      by_cases hb : b = k
      · simp [Memory.write, Memory.read, h1, h2, hb, Ne.symm h2]
      · simp [Memory.write, Memory.read, h1, h2, Ne.symm hb, ih]

theorem Memory.wf_read_write {m : Memory} (h : m.wf = true) (a : Nat) (v : Byte) (b : Nat) :
    (m.write a v).read b = if b = a then v else m.read b := Memory.read_write h a v b

theorem Memory.wfFrom_write {lo : Nat} {m : Memory} (h : Memory.wfFrom lo m = true) {a : Nat} (hlo : lo ≤ a)
    (ha : a < 256) (v : Byte) : Memory.wfFrom lo (m.write a v) = true := by
  induction m generalizing lo with
  | nil =>
    by_cases hv : v = 0#8
    · simp [Memory.write, Config.unlistedByte, hv, Memory.wfFrom]
    · simp only [Memory.write, Config.unlistedByte, hv, if_false]
      rw [Memory.wfFrom_cons]
      exact ⟨hlo, ha, hv, rfl⟩
  | cons c m ih =>
    obtain ⟨k, w⟩ := c
    have hc := Memory.wfFrom_cons.mp h
    by_cases hak : a < k
    · by_cases hv : v = 0#8
      · simpa [Memory.write, Config.unlistedByte, hak, hv] using h
      · simp only [Memory.write, Config.unlistedByte, hak, hv, if_true, if_false]
        rw [Memory.wfFrom_cons, Memory.wfFrom_cons]
        exact ⟨hlo, ha, hv, by omega, hc.2⟩
    · by_cases hka : a = k
      · subst hka
        by_cases hv : v = 0#8
        · simp only [Memory.write, Config.unlistedByte, hv, lt_irrefl, if_true, if_false]
          exact Memory.wfFrom_mono (by omega) hc.2.2.2
        · simp only [Memory.write, Config.unlistedByte, hv, lt_irrefl, if_true, if_false]
          rw [Memory.wfFrom_cons]
          exact ⟨hlo, ha, hv, hc.2.2.2⟩
      · simp only [Memory.write, hak, hka, if_false]
        rw [Memory.wfFrom_cons]
        exact ⟨hc.1, hc.2.1, hc.2.2.1, ih hc.2.2.2 (by omega)⟩

/-- A write keeps the canonical form. -/
theorem Memory.wf_write {m : Memory} (h : m.wf = true) {a : Nat} (ha : a < 256) (v : Byte) :
    (m.write a v).wf = true := Memory.wfFrom_write h (Nat.zero_le a) ha v

/-- Placing bytes keeps the canonical form. -/
theorem Memory.wf_place {m : Memory} (h : m.wf = true) (a : Nat) (bs : List Byte) : (m.place a bs).wf = true := by
  induction bs generalizing m a with
  | nil => exact h
  | cons b bs ih =>
    by_cases ha : a < Config.memSize
    · simp only [Memory.place, ha, if_true]
      exact ih (Memory.wf_write h ha b) (a + 1)
    · simpa [Memory.place, ha] using h

/-- What placed bytes read as: byte `b - a` of the list where it reaches, the old byte elsewhere. -/
theorem Memory.read_place {m : Memory} (h : m.wf = true) (a : Nat) (bs : List Byte) (b : Nat) (hb : b < 256) :
    (m.place a bs).read b = if a ≤ b then bs[b - a]?.getD (m.read b) else m.read b := by
  induction bs generalizing m a with
  | nil => simp [Memory.place]
  | cons x bs ih =>
    by_cases ha : a < Config.memSize
    · simp only [Memory.place, ha, if_true]
      rw [ih (Memory.wf_write h ha x) (a + 1), Memory.wf_read_write h]
      by_cases hba : b = a
      · subst hba; simp
      · by_cases hlt : a + 1 ≤ b
        · have h1 : b - a = (b - (a + 1)) + 1 := by omega
          simp [hlt, hba, (show a ≤ b by omega), h1]
        · simp [hlt, hba, (show ¬ a ≤ b by omega)]
    · have : ¬ a ≤ b := by simp only [Config.memSize] at ha; omega
      simp [Memory.place, ha, this]

/-- Two memories in canonical form that read alike are the same list. -/
theorem Memory.eq_of_read_eq {lo : Nat} {m m' : Memory} (h : Memory.wfFrom lo m = true)
    (h' : Memory.wfFrom lo m' = true) (hr : ∀ a, m.read a = m'.read a) : m = m' := by
  induction m generalizing lo m' with
  | nil =>
    cases m' with
    | nil => rfl
    | cons c m' =>
      obtain ⟨k, v⟩ := c
      have := hr k
      rw [Memory.wfFrom_cons] at h'
      simp [Memory.read, Config.unlistedByte] at this
      exact absurd this.symm h'.2.2.1
  | cons c m ih =>
    obtain ⟨k, v⟩ := c
    rw [Memory.wfFrom_cons] at h
    cases m' with
    | nil =>
      have := hr k
      simp [Memory.read, Config.unlistedByte] at this
      exact absurd this h.2.2.1
    | cons c' m' =>
      obtain ⟨k', v'⟩ := c'
      rw [Memory.wfFrom_cons] at h'
      have hkk : k = k' := by
        by_contra hne
        rcases Nat.lt_or_gt_of_ne hne with hlt | hgt
        · have := hr k
          simp [Memory.read, Ne.symm hne, Memory.read_below h'.2.2.2 (show k < k' + 1 by omega)] at this
          exact h.2.2.1 this
        · have := hr k'
          simp [Memory.read, hne, Memory.read_below h.2.2.2 (show k' < k + 1 by omega)] at this
          exact h'.2.2.1 this.symm
      subst hkk
      have hv : v = v' := by simpa [Memory.read] using hr k
      subst hv
      have : m = m' := by
        apply ih h.2.2.2 h'.2.2.2
        intro a
        by_cases ha : a = k
        · subst ha
          rw [Memory.read_below h.2.2.2 (by omega), Memory.read_below h'.2.2.2 (by omega)]
        · simpa [Memory.read, Ne.symm ha] using hr a
      rw [this]

/-! ### Fetched bytes -/

@[simp] theorem Memory.bytesFrom_zero (m : Memory) (a : Nat) : m.bytesFrom 0 a = [] := rfl

theorem Memory.bytesFrom_succ (m : Memory) (n a : Nat) :
    m.bytesFrom (n + 1) a = if a < 256 then m.read a :: m.bytesFrom n (a + 1) else [] := rfl

end Sys2Proof.Machine
end

