-- ==== Sys2Proof/Laws/PerInstr.lean ====
section
/-! SUPPORT. Statements about every instruction as syntax, one lemma per constructor: what its opcode's bits say (R51, R52,
R58), and that the decoder reads its encoding back. -/

namespace Sys2Proof.Laws.OpcodeBits

open Sys2Proof

/-- Bits 7:6 of the opcode are the number of operand bytes, bit 4 says whether the instruction sets `pc` itself. -/
def Statement (i : Instr) : Prop :=
  (encode i).length = operandCount (opcodeByte i) + 1 ∧ setsPcBit (opcodeByte i) = i.setsPc

theorem ldi (r imm : Byte) : Statement (.ldi r imm) :=
  ⟨show 3 = operandCount 0x82#8 + 1 by decide, show setsPcBit 0x82#8 = false by decide⟩
theorem prn (r : Byte) : Statement (.prn r) :=
  ⟨show 2 = operandCount 0x47#8 + 1 by decide, show setsPcBit 0x47#8 = false by decide⟩
theorem hlt : Statement (.hlt) :=
  ⟨show 1 = operandCount 0x01#8 + 1 by decide, show setsPcBit 0x01#8 = false by decide⟩
theorem add (a b : Byte) : Statement (.add a b) :=
  ⟨show 3 = operandCount 0xA0#8 + 1 by decide, show setsPcBit 0xA0#8 = false by decide⟩
theorem sub (a b : Byte) : Statement (.sub a b) :=
  ⟨show 3 = operandCount 0xA1#8 + 1 by decide, show setsPcBit 0xA1#8 = false by decide⟩
theorem mul (a b : Byte) : Statement (.mul a b) :=
  ⟨show 3 = operandCount 0xA2#8 + 1 by decide, show setsPcBit 0xA2#8 = false by decide⟩
theorem div (a b : Byte) : Statement (.div a b) :=
  ⟨show 3 = operandCount 0xA3#8 + 1 by decide, show setsPcBit 0xA3#8 = false by decide⟩
theorem mod (a b : Byte) : Statement (.mod a b) :=
  ⟨show 3 = operandCount 0xA4#8 + 1 by decide, show setsPcBit 0xA4#8 = false by decide⟩
theorem push (r : Byte) : Statement (.push r) :=
  ⟨show 2 = operandCount 0x45#8 + 1 by decide, show setsPcBit 0x45#8 = false by decide⟩
theorem pop (r : Byte) : Statement (.pop r) :=
  ⟨show 2 = operandCount 0x46#8 + 1 by decide, show setsPcBit 0x46#8 = false by decide⟩
theorem call (r : Byte) : Statement (.call r) :=
  ⟨show 2 = operandCount 0x50#8 + 1 by decide, show setsPcBit 0x50#8 = true by decide⟩
theorem ret : Statement (.ret) :=
  ⟨show 1 = operandCount 0x11#8 + 1 by decide, show setsPcBit 0x11#8 = true by decide⟩
theorem cmp (a b : Byte) : Statement (.cmp a b) :=
  ⟨show 3 = operandCount 0xA7#8 + 1 by decide, show setsPcBit 0xA7#8 = false by decide⟩
theorem jeq (r : Byte) : Statement (.jeq r) :=
  ⟨show 2 = operandCount 0x55#8 + 1 by decide, show setsPcBit 0x55#8 = true by decide⟩
theorem jne (r : Byte) : Statement (.jne r) :=
  ⟨show 2 = operandCount 0x56#8 + 1 by decide, show setsPcBit 0x56#8 = true by decide⟩
theorem jmp (r : Byte) : Statement (.jmp r) :=
  ⟨show 2 = operandCount 0x54#8 + 1 by decide, show setsPcBit 0x54#8 = true by decide⟩
theorem and (a b : Byte) : Statement (.and a b) :=
  ⟨show 3 = operandCount 0xA8#8 + 1 by decide, show setsPcBit 0xA8#8 = false by decide⟩
theorem or (a b : Byte) : Statement (.or a b) :=
  ⟨show 3 = operandCount 0xAA#8 + 1 by decide, show setsPcBit 0xAA#8 = false by decide⟩
theorem not (a : Byte) : Statement (.not a) :=
  ⟨show 2 = operandCount 0x69#8 + 1 by decide, show setsPcBit 0x69#8 = false by decide⟩
theorem xor (a b : Byte) : Statement (.xor a b) :=
  ⟨show 3 = operandCount 0xAB#8 + 1 by decide, show setsPcBit 0xAB#8 = false by decide⟩
theorem shl (a b : Byte) : Statement (.shl a b) :=
  ⟨show 3 = operandCount 0xAC#8 + 1 by decide, show setsPcBit 0xAC#8 = false by decide⟩
theorem shr (a b : Byte) : Statement (.shr a b) :=
  ⟨show 3 = operandCount 0xAD#8 + 1 by decide, show setsPcBit 0xAD#8 = false by decide⟩

end Sys2Proof.Laws.OpcodeBits

namespace Sys2Proof.Laws.RoundTrip

open Sys2Proof

/-- The decoder reads the instruction's encoding back and leaves the bytes after it. -/
def Statement (i : Instr) : Prop := ∀ rest : List Byte, decode (encode i ++ rest) = .ok (i, rest)

theorem ldi (r imm : Byte) : Statement (.ldi r imm) := fun _ => rfl
theorem prn (r : Byte) : Statement (.prn r) := fun _ => rfl
theorem hlt : Statement (.hlt) := fun _ => rfl
theorem add (a b : Byte) : Statement (.add a b) := fun _ => rfl
theorem sub (a b : Byte) : Statement (.sub a b) := fun _ => rfl
theorem mul (a b : Byte) : Statement (.mul a b) := fun _ => rfl
theorem div (a b : Byte) : Statement (.div a b) := fun _ => rfl
theorem mod (a b : Byte) : Statement (.mod a b) := fun _ => rfl
theorem push (r : Byte) : Statement (.push r) := fun _ => rfl
theorem pop (r : Byte) : Statement (.pop r) := fun _ => rfl
theorem call (r : Byte) : Statement (.call r) := fun _ => rfl
theorem ret : Statement (.ret) := fun _ => rfl
theorem cmp (a b : Byte) : Statement (.cmp a b) := fun _ => rfl
theorem jeq (r : Byte) : Statement (.jeq r) := fun _ => rfl
theorem jne (r : Byte) : Statement (.jne r) := fun _ => rfl
theorem jmp (r : Byte) : Statement (.jmp r) := fun _ => rfl
theorem and (a b : Byte) : Statement (.and a b) := fun _ => rfl
theorem or (a b : Byte) : Statement (.or a b) := fun _ => rfl
theorem not (a : Byte) : Statement (.not a) := fun _ => rfl
theorem xor (a b : Byte) : Statement (.xor a b) := fun _ => rfl
theorem shl (a b : Byte) : Statement (.shl a b) := fun _ => rfl
theorem shr (a b : Byte) : Statement (.shr a b) := fun _ => rfl

end Sys2Proof.Laws.RoundTrip
end

