-- ==== Sys2Proof/Laws/State.lean ====
section
/-! SUPPORT. One lemma per field per update of the state, each true by rfl, and the register file's two laws: later proofs
rewrite with these and unfold no record update. -/

namespace Sys2Proof.Machine

open Sys2Proof

variable (s : State)

/-! ### setReg -/

@[simp] theorem State.setReg_regs (r : RegIdx) (v : Byte) : (s.setReg r v).regs = s.regs.set r v := rfl
@[simp] theorem State.setReg_pc (r : RegIdx) (v : Byte) : (s.setReg r v).pc = s.pc := rfl
@[simp] theorem State.setReg_flags (r : RegIdx) (v : Byte) : (s.setReg r v).flags = s.flags := rfl
@[simp] theorem State.setReg_run (r : RegIdx) (v : Byte) : (s.setReg r v).run = s.run := rfl
@[simp] theorem State.setReg_fault (r : RegIdx) (v : Byte) : (s.setReg r v).fault = s.fault := rfl
@[simp] theorem State.setReg_mem (r : RegIdx) (v : Byte) : (s.setReg r v).mem = s.mem := rfl
@[simp] theorem State.setReg_out (r : RegIdx) (v : Byte) : (s.setReg r v).out = s.out := rfl

/-! ### setSp -/

@[simp] theorem State.setSp_regs (v : Byte) : (s.setSp v).regs = s.regs.set Config.spIndex v := rfl
@[simp] theorem State.setSp_pc (v : Byte) : (s.setSp v).pc = s.pc := rfl
@[simp] theorem State.setSp_flags (v : Byte) : (s.setSp v).flags = s.flags := rfl
@[simp] theorem State.setSp_run (v : Byte) : (s.setSp v).run = s.run := rfl
@[simp] theorem State.setSp_fault (v : Byte) : (s.setSp v).fault = s.fault := rfl
@[simp] theorem State.setSp_mem (v : Byte) : (s.setSp v).mem = s.mem := rfl
@[simp] theorem State.setSp_out (v : Byte) : (s.setSp v).out = s.out := rfl

/-! ### advance -/

@[simp] theorem State.advance_regs (n : Nat) : (s.advance n).regs = s.regs := rfl
@[simp] theorem State.advance_pc (n : Nat) : (s.advance n).pc = s.pc + BitVec.ofNat 9 n := rfl
@[simp] theorem State.advance_flags (n : Nat) : (s.advance n).flags = s.flags := rfl
@[simp] theorem State.advance_run (n : Nat) : (s.advance n).run = s.run := rfl
@[simp] theorem State.advance_fault (n : Nat) : (s.advance n).fault = s.fault := rfl
@[simp] theorem State.advance_mem (n : Nat) : (s.advance n).mem = s.mem := rfl
@[simp] theorem State.advance_out (n : Nat) : (s.advance n).out = s.out := rfl

@[simp] theorem State.advance_reg (n : Nat) (q : RegIdx) : (s.advance n).reg q = s.reg q := rfl
@[simp] theorem State.advance_sp (n : Nat) : (s.advance n).sp = s.sp := rfl

/-! ### jumpTo -/

@[simp] theorem State.jumpTo_regs (target : Byte) : (s.jumpTo target).regs = s.regs := rfl
@[simp] theorem State.jumpTo_pc (target : Byte) : (s.jumpTo target).pc = target.setWidth 9 := rfl
@[simp] theorem State.jumpTo_flags (target : Byte) : (s.jumpTo target).flags = s.flags := rfl
@[simp] theorem State.jumpTo_run (target : Byte) : (s.jumpTo target).run = s.run := rfl
@[simp] theorem State.jumpTo_fault (target : Byte) : (s.jumpTo target).fault = s.fault := rfl
@[simp] theorem State.jumpTo_mem (target : Byte) : (s.jumpTo target).mem = s.mem := rfl
@[simp] theorem State.jumpTo_out (target : Byte) : (s.jumpTo target).out = s.out := rfl

@[simp] theorem State.jumpTo_reg (target : Byte) (q : RegIdx) : (s.jumpTo target).reg q = s.reg q := rfl
@[simp] theorem State.jumpTo_sp (target : Byte) : (s.jumpTo target).sp = s.sp := rfl

/-! ### emit -/

@[simp] theorem State.emit_regs (v : Byte) : (s.emit v).regs = s.regs := rfl
@[simp] theorem State.emit_pc (v : Byte) : (s.emit v).pc = s.pc := rfl
@[simp] theorem State.emit_flags (v : Byte) : (s.emit v).flags = s.flags := rfl
@[simp] theorem State.emit_run (v : Byte) : (s.emit v).run = s.run := rfl
@[simp] theorem State.emit_fault (v : Byte) : (s.emit v).fault = s.fault := rfl
@[simp] theorem State.emit_mem (v : Byte) : (s.emit v).mem = s.mem := rfl
@[simp] theorem State.emit_out (v : Byte) : (s.emit v).out = s.out ++ [v] := rfl

@[simp] theorem State.emit_reg (v : Byte) (q : RegIdx) : (s.emit v).reg q = s.reg q := rfl
@[simp] theorem State.emit_sp (v : Byte) : (s.emit v).sp = s.sp := rfl

/-! ### halt -/

@[simp] theorem State.halt_regs : (s.halt).regs = s.regs := rfl
@[simp] theorem State.halt_pc : (s.halt).pc = s.pc := rfl
@[simp] theorem State.halt_flags : (s.halt).flags = s.flags := rfl
@[simp] theorem State.halt_run : (s.halt).run = .halted := rfl
@[simp] theorem State.halt_fault : (s.halt).fault = s.fault := rfl
@[simp] theorem State.halt_mem : (s.halt).mem = s.mem := rfl
@[simp] theorem State.halt_out : (s.halt).out = s.out := rfl

@[simp] theorem State.halt_reg (q : RegIdx) : (s.halt).reg q = s.reg q := rfl
@[simp] theorem State.halt_sp : (s.halt).sp = s.sp := rfl

/-! ### setFlags -/

@[simp] theorem State.setFlags_regs (f : Flags) : (s.setFlags f).regs = s.regs := rfl
@[simp] theorem State.setFlags_pc (f : Flags) : (s.setFlags f).pc = s.pc := rfl
@[simp] theorem State.setFlags_flags (f : Flags) : (s.setFlags f).flags = f := rfl
@[simp] theorem State.setFlags_run (f : Flags) : (s.setFlags f).run = s.run := rfl
@[simp] theorem State.setFlags_fault (f : Flags) : (s.setFlags f).fault = s.fault := rfl
@[simp] theorem State.setFlags_mem (f : Flags) : (s.setFlags f).mem = s.mem := rfl
@[simp] theorem State.setFlags_out (f : Flags) : (s.setFlags f).out = s.out := rfl

@[simp] theorem State.setFlags_reg (f : Flags) (q : RegIdx) : (s.setFlags f).reg q = s.reg q := rfl
@[simp] theorem State.setFlags_sp (f : Flags) : (s.setFlags f).sp = s.sp := rfl

/-! ### push -/

@[simp] theorem State.push_regs (v : State → Byte) : (s.push v).regs = s.regs.set Config.spIndex (s.sp - 1#8) := rfl
@[simp] theorem State.push_pc (v : State → Byte) : (s.push v).pc = s.pc := rfl
@[simp] theorem State.push_flags (v : State → Byte) : (s.push v).flags = s.flags := rfl
@[simp] theorem State.push_run (v : State → Byte) : (s.push v).run = s.run := rfl
@[simp] theorem State.push_fault (v : State → Byte) : (s.push v).fault = s.fault := rfl
/-- Not a simp lemma: what a push leaves in memory is read by `State.push_read`. -/
theorem State.push_mem (v : State → Byte) : (s.push v).mem = s.mem.write (s.setSp (s.sp - 1#8)).sp.toNat (v (s.setSp (s.sp - 1#8))) := rfl
@[simp] theorem State.push_out (v : State → Byte) : (s.push v).out = s.out := rfl

/-! ### dropTop -/

@[simp] theorem State.dropTop_regs : (s.dropTop).regs = s.regs.set Config.spIndex (s.sp + 1#8) := rfl
@[simp] theorem State.dropTop_pc : (s.dropTop).pc = s.pc := rfl
@[simp] theorem State.dropTop_flags : (s.dropTop).flags = s.flags := rfl
@[simp] theorem State.dropTop_run : (s.dropTop).run = s.run := rfl
@[simp] theorem State.dropTop_fault : (s.dropTop).fault = s.fault := rfl
@[simp] theorem State.dropTop_mem : (s.dropTop).mem = s.mem := rfl
@[simp] theorem State.dropTop_out : (s.dropTop).out = s.out := rfl

/-! ### raise -/

@[simp] theorem State.raise_regs (cause : Fault) (info : Nat) : (s.raise cause info).regs = s.regs := rfl
@[simp] theorem State.raise_pc (cause : Fault) (info : Nat) : (s.raise cause info).pc = s.pc := rfl
@[simp] theorem State.raise_flags (cause : Fault) (info : Nat) : (s.raise cause info).flags = s.flags := rfl
@[simp] theorem State.raise_run (cause : Fault) (info : Nat) : (s.raise cause info).run = .faulted := rfl
@[simp] theorem State.raise_fault (cause : Fault) (info : Nat) : (s.raise cause info).fault = some ⟨cause, s.pc, info⟩ := rfl
@[simp] theorem State.raise_mem (cause : Fault) (info : Nat) : (s.raise cause info).mem = s.mem := rfl
@[simp] theorem State.raise_out (cause : Fault) (info : Nat) : (s.raise cause info).out = s.out := rfl

@[simp] theorem State.raise_reg (cause : Fault) (info : Nat) (q : RegIdx) : (s.raise cause info).reg q = s.reg q := rfl
@[simp] theorem State.raise_sp (cause : Fault) (info : Nat) : (s.raise cause info).sp = s.sp := rfl

/-! ### The register file -/

/-- Reading a register after writing one: the written value at its index, the old value elsewhere. -/
theorem State.setReg_reg (r : RegIdx) (v : Byte) (q : RegIdx) :
    (s.setReg r v).reg q = if q = r then v else s.reg q := by
  simp only [State.reg, State.setReg, Fin.getElem_fin, Vector.getElem_set, Fin.ext_iff, eq_comm]

@[simp] theorem State.setReg_reg_same (r : RegIdx) (v : Byte) : (s.setReg r v).reg r = v := by
  simp [State.setReg_reg]

theorem State.setReg_reg_other {r q : RegIdx} (v : Byte) (h : q ≠ r) : (s.setReg r v).reg q = s.reg q := by
  simp [State.setReg_reg, h]

/-- SP is register 7 (R13). -/
theorem State.sp_eq_reg : s.sp = s.reg 7 := rfl

theorem State.setSp_reg (v : Byte) (q : RegIdx) :
    (s.setSp v).reg q = if q = 7 then v else s.reg q := s.setReg_reg _ _ _

@[simp] theorem State.setSp_sp (v : Byte) : (s.setSp v).sp = v := s.setReg_reg_same _ _

theorem State.dropTop_reg (q : RegIdx) :
    s.dropTop.reg q = if q = 7 then s.sp + 1#8 else s.reg q := s.setReg_reg _ _ _

theorem State.push_reg (v : State → Byte) (q : RegIdx) :
    (s.push v).reg q = if q = 7 then s.sp - 1#8 else s.reg q := s.setReg_reg _ _ _

/-- Two states with the same registers one by one have the same register file. -/
theorem State.regs_eq_of_reg {s t : State} (h : ∀ r, t.reg r = s.reg r) : t.regs = s.regs := by
  apply Vector.ext
  intro k hk
  exact h ⟨k, hk⟩

end Sys2Proof.Machine
end

