-- ==== Sys2Proof/Laws/Step.lean ====
section
/-! SUPPORT. What a fetch and a step can do, and what the stack operations do to memory: each said once, for later proofs to
cite. -/

namespace Sys2Proof.Machine

open Sys2Proof

/-! ### Fetch -/

/-- A fetch answers an instruction exactly when the bytes at `pc` decode to it. -/
theorem State.fetch_eq_ok {s : State} {i : Instr} :
    s.fetch = .ok i ↔ ∃ rest, decode (s.mem.bytesFrom 3 s.pc.toNat) = .ok (i, rest) := by
  unfold State.fetch
  change (match decode (s.mem.bytesFrom 3 s.pc.toNat) with | .ok (i, _) => _ | .error (.endOfBytes k) => _ | .error (.unknownOpcode byte) => _) = _ ↔ _
  rcases decode (s.mem.bytesFrom 3 s.pc.toNat) with (_ | _) | ⟨j, rest⟩ <;> simp

/-- A fetch fails exactly when the bytes at `pc` do not decode: the address of the missing byte, or the unknown byte. -/
theorem State.fetch_eq_error {s : State} {c : Fault} {n : Nat} :
    s.fetch = .error (c, n) ↔
      (∃ k, decode (s.mem.bytesFrom 3 s.pc.toNat) = .error (.endOfBytes k) ∧ c = .addressOutOfRange ∧
        n = s.pc.toNat + k) ∨
      (∃ b, decode (s.mem.bytesFrom 3 s.pc.toNat) = .error (.unknownOpcode b) ∧ c = .unknownOpcode ∧ n = b.toNat) := by
  unfold State.fetch
  change (match decode (s.mem.bytesFrom 3 s.pc.toNat) with | .ok (i, _) => _ | .error (.endOfBytes k) => _ | .error (.unknownOpcode byte) => _) = _ ↔ _
  rcases decode (s.mem.bytesFrom 3 s.pc.toNat) with (_ | _) | ⟨j, rest⟩ <;> simp [eq_comm]

/-! ### Step -/

theorem step_of_fetch_ok {s : State} {i : Instr} (hr : s.run = .running) (hf : s.fetch = .ok i) :
    step s = exec i s := by
  simp [step, hr, hf]

theorem step_of_fetch_error {s : State} {c : Fault} {n : Nat} (hr : s.run = .running)
    (hf : s.fetch = .error (c, n)) : step s = .next (s.raise c n) := by
  simp [step, hr, hf]

/-- Everything a step can do: nothing when stopped; in a Running core, execute what the fetch gives, or take its fault. -/
theorem step_cases (s : State) :
    (s.run ≠ .running ∧ step s = .next s) ∨
      (s.run = .running ∧ ∃ i, s.fetch = .ok i ∧ step s = exec i s) ∨
      (s.run = .running ∧ ∃ c n, s.fetch = .error (c, n) ∧ step s = .next (s.raise c n)) := by
  cases hr : s.run with
  | running =>
    cases hf : s.fetch with
    | ok i => exact .inr (.inl ⟨rfl, i, rfl, step_of_fetch_ok hr hf⟩)
    | error e => exact .inr (.inr ⟨rfl, e.1, e.2, rfl, step_of_fetch_error hr hf⟩)
  | halted => exact .inl ⟨by simp, by simp [step, hr]⟩
  | faulted => exact .inl ⟨by simp, by simp [step, hr]⟩

theorem State.raise_eq_stopped (s : State) (c : Fault) (n : Nat) : s.raise c n = s.stopped c n := rfl

/-! ### Stack -/

/-- A push stores its byte at the decremented SP and nowhere else. -/
theorem State.push_read {s : State} (h : s.mem.wf = true) (v : State → Byte) (a : Nat) :
    (s.push v).mem.read a =
      if a = (s.sp - 1#8).toNat then v (s.setSp (s.sp - 1#8)) else s.mem.read a := by
  rw [State.push_mem, State.setSp_sp]
  exact Memory.wf_read_write h _ _ _

/-- A push keeps memory's canonical form. -/
theorem State.push_wf {s : State} (h : s.mem.wf = true) (v : State → Byte) : (s.push v).mem.wf = true :=
  Memory.wf_write h (State.sp _).isLt _

end Sys2Proof.Machine
end

