-- ==== Sys2Proof/Tests/Slice0.lean ====
section
/-! SUPPORT. Tests: one step each on small states, expected results from the spec's vectors (V-…, 95_test_vectors.md) or
worked by hand from its rules; the smoke test of WellFormed; and, for each statement with hypotheses, witnesses that meet
them, one for each clause at the ends of its range. -/

namespace Sys2Proof.Tests

open Sys2Proof Sys2Proof.Machine

/-- The next state of an answer. -/
def nextOf : Result → Option State
  | .next t => some t
  | .fault _ => none
  | .refused _ => none

/-- A view of the state after one step. -/
def after {α : Type} (s : State) (view : State → α) : Option α := (nextOf (step s)).map view

/-- The reset state with bytes placed at an address and `pc` there. -/
def startAt (pc : Nat) (bytes : List Byte) : State :=
  { State.reset with pc := BitVec.ofNat 9 pc, mem := Memory.place [] pc bytes }

/-- A state with registers set. -/
def setAll (s : State) (rs : List (RegIdx × Byte)) : State := rs.foldl (fun s r => s.setReg r.1 r.2) s

/-- R0 and R1 set, bytes at 0: the start of most ALU vectors. -/
def alu (bytes : List Byte) (x y : Byte) : State := setAll (startAt 0 bytes) [(0, x), (1, y)]

/-- The fault record and what a fault leaves alone: `pc`, SP, the output. -/
def faultView (s : State) : RunState × Option FaultRecord × PcWord × Byte × List Byte :=
  (s.run, s.fault, s.pc, s.sp, s.out)

/-- What `faultView` gives for a fault at `pc` with SP and output as after reset. -/
def faulted (cause : Fault) (pc info : Nat) : Option (RunState × Option FaultRecord × PcWord × Byte × List Byte) :=
  some (.faulted, some ⟨cause, BitVec.ofNat 9 pc, info⟩, BitVec.ofNat 9 pc, 0xF4#8, [])

/-! ### WellFormed: each check refuses an ill-formed term -/

theorem test_wf_refuses_bad_op1 : (Instr.add 8#8 0#8).wf = false ∧ (Instr.ldi 8#8 0#8).wf = false := by decide
theorem test_wf_refuses_bad_op2 : (Instr.add 0#8 8#8).wf = false ∧ (Instr.cmp 7#8 0xFF#8).wf = false := by decide
theorem test_wf_accepts_any_immediate : (Instr.ldi 7#8 9#8).wf = true ∧ (Instr.ldi 0#8 0xFF#8).wf = true := by decide

/-- Every constructor with a register operand refuses the operand 8 (R55). -/
theorem test_wf_refuses_each_constructor :
    ([Instr.ldi 8#8 0#8, .prn 8#8, .add 8#8 0#8, .sub 8#8 0#8, .mul 8#8 0#8, .div 8#8 0#8, .mod 8#8 0#8, .push 8#8,
      .pop 8#8, .call 8#8] ++
     [Instr.cmp 8#8 0#8, .jeq 8#8, .jne 8#8, .jmp 8#8, .and 8#8 0#8, .or 8#8 0#8, .not 8#8, .xor 8#8 0#8, .shl 8#8 0#8,
      .shr 8#8 0#8]).all (fun i => !i.wf) = true := by decide

/-! ### Decoding: every constructor's word, written out from R56 -/

theorem test_decode_move :
    decode [0b10000010#8, 0b00000011#8, 0b00001001#8] = .ok (.ldi 3#8 9#8, []) ∧
    decode [0b01000111#8, 0b00000010#8] = .ok (.prn 2#8, []) ∧
    decode [0b00000001#8, 0b11111111#8] = .ok (.hlt, [0xFF#8]) := ⟨rfl, rfl, rfl⟩

theorem test_decode_arith :
    decode [0b10100000#8, 0b00000001#8, 0b00000010#8] = .ok (.add 1#8 2#8, []) ∧
    decode [0b10100001#8, 0b00000001#8, 0b00000010#8] = .ok (.sub 1#8 2#8, []) ∧
    decode [0b10100010#8, 0b00000001#8, 0b00000010#8] = .ok (.mul 1#8 2#8, []) ∧
    decode [0b10100011#8, 0b00000001#8, 0b00000010#8] = .ok (.div 1#8 2#8, []) ∧
    decode [0b10100100#8, 0b00000001#8, 0b00000010#8] = .ok (.mod 1#8 2#8, []) ∧
    decode [0b10100111#8, 0b00000001#8, 0b00000010#8] = .ok (.cmp 1#8 2#8, []) := ⟨rfl, rfl, rfl, rfl, rfl, rfl⟩

theorem test_decode_bitwise :
    decode [0b10101000#8, 0b00000001#8, 0b00000010#8] = .ok (.and 1#8 2#8, []) ∧
    decode [0b10101010#8, 0b00000001#8, 0b00000010#8] = .ok (.or 1#8 2#8, []) ∧
    decode [0b01101001#8, 0b00000101#8] = .ok (.not 5#8, []) ∧
    decode [0b10101011#8, 0b00000001#8, 0b00000010#8] = .ok (.xor 1#8 2#8, []) ∧
    decode [0b10101100#8, 0b00000001#8, 0b00000010#8] = .ok (.shl 1#8 2#8, []) ∧
    decode [0b10101101#8, 0b00000001#8, 0b00000010#8] = .ok (.shr 1#8 2#8, []) := ⟨rfl, rfl, rfl, rfl, rfl, rfl⟩

theorem test_decode_stack :
    decode [0b01000101#8, 0b00000111#8] = .ok (.push 7#8, []) ∧
    decode [0b01000110#8, 0b00000110#8] = .ok (.pop 6#8, []) ∧
    decode [0b01010000#8, 0b00000100#8] = .ok (.call 4#8, []) ∧
    decode [0b00010001#8] = .ok (.ret, []) := ⟨rfl, rfl, rfl, rfl⟩

theorem test_decode_jumps :
    decode [0b01010100#8, 0b00000100#8] = .ok (.jmp 4#8, []) ∧
    decode [0b01010101#8, 0b00000100#8] = .ok (.jeq 4#8, []) ∧
    decode [0b01010110#8, 0b00000100#8] = .ok (.jne 4#8, []) := ⟨rfl, rfl, rfl⟩

/-- How many of the 64 bytes from `lo` on are no opcode. -/
def unknownFrom (lo : Nat) : Nat :=
  ((List.range 64).filter fun n => (lookupOpcode (BitVec.ofNat 8 (lo + n))).isNone).length

/-- V-E23: 234 bytes are no opcode, 62 + 56 + 52 + 64 by the list of R56, the neighbours of the defined ones among them. -/
theorem test_unknown_count :
    unknownFrom 0 = 62 ∧ unknownFrom 64 = 56 ∧ unknownFrom 128 = 52 ∧ unknownFrom 192 = 64 := by decide

theorem test_unknown_neighbours :
    [0x00#8, 0x02#8, 0x10#8, 0x12#8, 0x21#8, 0x44#8, 0x48#8, 0x51#8, 0x53#8, 0x57#8, 0x68#8, 0x6A#8, 0x81#8, 0x83#8,
     0xA5#8, 0xA6#8, 0xA9#8, 0xAE#8, 0xB0#8, 0xC1#8].all (fun b => (lookupOpcode b).isNone) = true := by decide

/-- The words of the opcode table as the host numbers them, and such a word run as the first instruction after reset. -/
theorem test_table_words :
    decodeTableWord 24 0x090382 = some (.ldi 3#8 9#8) ∧ decodeTableWord 16 0x0247 = some (.prn 2#8) ∧
    decodeTableWord 8 0x01 = some .hlt ∧ decodeTableWord 8 0x55 = some (.jeq 0#8) ∧ decodeTableWord 8 0x83 = none := by
  decide

theorem test_with_fetch_word :
    after (State.reset.withFetchWord 24 0x090382) (fun t => (t.reg 3, t.pc)) = some (0x09#8, 3#9) ∧
    after (State.reset.withFetchWord 8 0x11) (fun t => (t.reg 7, t.pc)) = some (0xF5#8, 0#9) := by decide

/-! ### The instructions, on the spec's vectors -/

/-- V-E: `pc` after each opcode from address 100, all operands R0, as after reset. -/
theorem test_pc_after_each_opcode :
    ([(0x01#8, 100), (0x11#8, 0), (0x45#8, 102), (0x46#8, 102), (0x47#8, 102), (0x50#8, 0), (0x54#8, 0), (0x55#8, 102),
      (0x56#8, 0), (0x69#8, 102), (0x82#8, 103)] ++
     [(0xA0#8, 103), (0xA1#8, 103), (0xA2#8, 103), (0xA3#8, 100), (0xA4#8, 100), (0xA7#8, 103), (0xA8#8, 103),
      (0xAA#8, 103), (0xAB#8, 103), (0xAC#8, 103), (0xAD#8, 103)]).all
      (fun row => after (startAt 100 [row.1]) (fun t => t.pc.toNat) == some row.2) = true := by decide

/-- V-D4, V-D5. -/
theorem test_ldi_sp : after (startAt 0 [0x82#8, 7#8, 0x80#8]) (fun t => (t.reg 7, t.pc)) = some (0x80#8, 3#9) := by decide
theorem test_ldi_immediate_unchecked :
    after (startAt 0 [0x82#8, 1#8, 9#8]) (fun t => (t.reg 1, t.run)) = some (9#8, .running) := by decide

/-- V-D9, and the host's text of V-D8's stream. -/
theorem test_prn_sp : after (startAt 0 [0x47#8, 7#8]) (fun t => (t.out, t.pc)) = some ([244#8], 2#9) := by decide
theorem test_host_text :
    ({ State.reset with out := [17#8, 0#8, 255#8] } : State).hostText =
      ['1', '7', '\n', '0', '\n', '2', '5', '5', '\n'] := by decide

/-- V-D12, V-D13. -/
theorem test_hlt_at_255 : after (startAt 255 [0x01#8]) (fun t => (t.run, t.pc)) = some (.halted, 255#9) := by decide
theorem test_halted_stays :
    after { startAt 1 [0x82#8, 0#8, 1#8] with run := .halted } (fun t => (t.reg 0, t.pc)) = some (0#8, 1#9) := by decide

/-- V-A2, V-A66. -/
theorem test_add_wraps : after (alu [0xA0#8, 0#8, 1#8] 0xFF#8 0x01#8) (fun t => (t.reg 0, t.flags.e)) =
    some (0x00#8, false) := by decide
theorem test_add_sp : after (alu [0xA0#8, 7#8, 0#8] 0x10#8 0#8) (fun t => (t.reg 7, t.reg 0)) = some (0x04#8, 0x10#8) := by
  decide

/-- V-A4, V-A52. -/
theorem test_sub_wraps : after (alu [0xA1#8, 0#8, 1#8] 0x05#8 0x0A#8) (fun t => (t.reg 0, t.reg 1)) =
    some (0xFB#8, 0x0A#8) := by decide
theorem test_sub_self : after (alu [0xA1#8, 0#8, 0#8] 0x4D#8 0#8) (fun t => (t.reg 0, t.pc)) = some (0#8, 3#9) := by decide

/-- V-A10, V-A54. -/
theorem test_mul_low_byte : after (alu [0xA2#8, 0#8, 1#8] 0xFF#8 0xFF#8) (fun t => t.reg 0) = some 0x01#8 := by decide
theorem test_mul_self : after (alu [0xA2#8, 0#8, 0#8] 0x10#8 0#8) (fun t => t.reg 0) = some 0x00#8 := by decide

/-- V-A11, V-A56. -/
theorem test_div_floor : after (alu [0xA3#8, 0#8, 1#8] 0x11#8 0x05#8) (fun t => (t.reg 0, t.reg 1)) =
    some (0x03#8, 0x05#8) := by decide
theorem test_div_zero_self : after (startAt 0 [0xA3#8, 0#8, 0#8]) faultView = faulted .divisionByZero 0 0xA3 := by decide

/-- V-A18, V-A19. -/
theorem test_mod : after (alu [0xA4#8, 0#8, 1#8] 0x7F#8 0x80#8) (fun t => t.reg 0) = some 0x7F#8 := by decide
theorem test_mod_zero : after (alu [0xA4#8, 0#8, 1#8] 0x0A#8 0x00#8) faultView = faulted .divisionByZero 0 0xA4 := by decide

/-- V-A20 to V-A22, V-A67. -/
theorem test_and : after (alu [0xA8#8, 0#8, 1#8] 0x3C#8 0xF0#8) (fun t => t.reg 0) = some 0x30#8 := by decide
theorem test_or : after (alu [0xAA#8, 0#8, 1#8] 0x3C#8 0xF0#8) (fun t => t.reg 0) = some 0xFC#8 := by decide
theorem test_xor : after (alu [0xAB#8, 0#8, 1#8] 0x3C#8 0xF0#8) (fun t => t.reg 0) = some 0xCC#8 := by decide
theorem test_xor_at_20 : after (setAll (startAt 20 [0xAB#8, 6#8, 5#8]) [(6, 0xFF#8), (5, 0x0F#8)])
    (fun t => (t.reg 6, t.pc)) = some (0xF0#8, 23#9) := by decide

/-- V-A25, V-A26. -/
theorem test_not : after (alu [0x69#8, 0#8] 0xC0#8 0#8) (fun t => (t.reg 0, t.pc)) = some (0x3F#8, 2#9) := by decide
theorem test_not_r5 : after (setAll (startAt 0 [0x69#8, 5#8]) [(5, 0x55#8)]) (fun t => t.reg 5) = some 0xAA#8 := by decide

/-- V-A28, V-A32. -/
theorem test_shl_seven : after (alu [0xAC#8, 0#8, 1#8] 0x01#8 0x07#8) (fun t => t.reg 0) = some 0x80#8 := by decide
theorem test_shl_eight : after (alu [0xAC#8, 0#8, 1#8] 0xFF#8 0x08#8) (fun t => t.reg 0) = some 0x00#8 := by decide

/-- V-A35, V-A40. -/
theorem test_shr_logical : after (alu [0xAD#8, 0#8, 1#8] 0x80#8 0x07#8) (fun t => t.reg 0) = some 0x01#8 := by decide
theorem test_shr_255 : after (alu [0xAD#8, 0#8, 1#8] 0xFF#8 0xFF#8) (fun t => t.reg 0) = some 0x00#8 := by decide

/-- V-A44, V-A48. -/
theorem test_cmp_unsigned : after (alu [0xA7#8, 0#8, 1#8] 0x80#8 0x7F#8) (fun t => (t.flags, t.reg 0, t.reg 1)) =
    some (⟨false, true, false⟩, 0x80#8, 0x7F#8) := by decide
theorem test_cmp_clears : after { alu [0xA7#8, 0#8, 1#8] 0x01#8 0x02#8 with flags := ⟨true, false, false⟩ }
    (fun t => t.flags) = some ⟨false, false, true⟩ := by decide

/-- V-S8, V-S11. -/
theorem test_push_sp : after (startAt 0 [0x45#8, 7#8]) (fun t => (t.reg 7, t.mem.read 0xF3, t.pc)) =
    some (0xF3#8, 0xF3#8, 2#9) := by decide
theorem test_push_wraps : after (setAll (startAt 0 [0x45#8, 0#8]) [(0, 0xAB#8), (7, 0#8)])
    (fun t => (t.reg 7, t.mem.read 0xFF)) = some (0xFF#8, 0xAB#8) := by decide

/-- V-S9, V-S12. -/
theorem test_pop_sp : after { startAt 0 [0x46#8, 7#8] with mem := [(0, 0x46#8), (1, 7#8), (0xF4, 0x20#8)] }
    (fun t => (t.reg 7, t.pc)) = some (0x21#8, 2#9) := by decide
theorem test_pop_wraps :
    after { setAll State.reset [(7, 0xFF#8)] with mem := [(0, 0x46#8), (0xFF, 0x77#8)] }
      (fun t => (t.reg 0, t.reg 7, t.mem.read 0xFF)) = some (0x77#8, 0x00#8, 0x77#8) := by decide

/-- V-S14, V-S16. -/
theorem test_call_sp : after (startAt 0 [0x50#8, 7#8]) (fun t => (t.reg 7, t.mem.read 0xF3, t.pc)) =
    some (0xF3#8, 0x02#8, 243#9) := by decide
theorem test_call_at_253 : after (setAll (startAt 253 [0x50#8, 1#8]) [(1, 0x28#8)])
    (fun t => (t.reg 7, t.mem.read 0xF3, t.pc)) = some (0xF3#8, 0xFF#8, 40#9) := by decide

/-- V-S6, V-S18. -/
theorem test_ret : after { setAll (startAt 40 [0x11#8]) [(7, 0xF3#8)] with mem := [(40, 0x11#8), (0xF3, 0x16#8)] }
    (fun t => (t.reg 7, t.pc)) = some (0xF4#8, 22#9) := by decide
theorem test_ret_at_255 : after { setAll (startAt 255 [0x11#8]) [(7, 0xF3#8)] with mem := [(0xF3, 0x16#8), (255, 0x11#8)] }
    (fun t => (t.reg 7, t.pc)) = some (0xF4#8, 22#9) := by decide

/-- V-C2, V-C4. -/
theorem test_jmp_self : after (setAll (startAt 10 [0x54#8, 1#8]) [(1, 0x0A#8)]) (fun t => (t.pc, t.run)) =
    some (10#9, .running) := by decide
theorem test_jmp_sp : after (startAt 0 [0x54#8, 7#8]) (fun t => t.pc) = some 244#9 := by decide

/-- V-C5, V-C14. -/
theorem test_jeq_taken :
    after { setAll (startAt 4 [0x55#8, 2#8]) [(2, 0x30#8)] with flags := ⟨true, false, false⟩ } (fun t => t.pc) =
      some 48#9 := by decide
theorem test_jeq_not_taken_at_254 : after (startAt 254 [0x55#8, 0#8]) (fun t => (t.pc, t.run)) =
    some (256#9, .running) := by decide

/-- V-C10, V-C8. -/
theorem test_jne_after_reset : after (setAll (startAt 0 [0x56#8, 2#8]) [(2, 0x30#8)]) (fun t => t.pc) = some 48#9 := by
  decide
theorem test_jne_not_taken :
    after { setAll (startAt 4 [0x56#8, 2#8]) [(2, 0x30#8)] with flags := ⟨true, false, false⟩ } (fun t => t.pc) =
      some 6#9 := by decide

/-! ### Faults and reset -/

/-- V-F1, V-F2, V-F3. -/
theorem test_unknown_zero : after (startAt 0 [0x00#8]) faultView = faulted .unknownOpcode 0 0 := by decide
theorem test_unknown_at_255 : after (startAt 255 [0xFF#8]) faultView = faulted .unknownOpcode 255 0xFF := by decide
theorem test_unknown_three_operands : after (startAt 0 [0xC1#8]) faultView = faulted .unknownOpcode 0 0xC1 := by decide

/-- V-F6, V-F7, V-F10, V-S15. -/
theorem test_operand_at_256 : after (startAt 255 [0x47#8]) faultView = faulted .addressOutOfRange 255 256 := by decide
theorem test_range_before_register : after (startAt 254 [0xA3#8, 9#8]) faultView = faulted .addressOutOfRange 254 256 := by
  decide
theorem test_fetch_at_256 : after (startAt 256 []) faultView = faulted .addressOutOfRange 256 256 := by decide
theorem test_call_at_254 : after (setAll (startAt 254 [0x50#8, 1#8]) [(1, 0x28#8)]) faultView =
    faulted .addressOutOfRange 254 256 := by decide

/-- V-F12, V-F14, V-F15, V-F17. -/
theorem test_bad_op1_first : after (startAt 0 [0xA0#8, 9#8, 10#8]) faultView = faulted .registerOutOfRange 0 9 := by decide
theorem test_register_before_division : after (startAt 0 [0xA3#8, 9#8, 1#8]) faultView = faulted .registerOutOfRange 0 9 := by
  decide
theorem test_prn_bad_register : after (startAt 0 [0x47#8, 0xFF#8]) faultView = faulted .registerOutOfRange 0 0xFF := by decide
theorem test_jeq_not_taken_bad_register : after (startAt 0 [0x55#8, 9#8]) faultView = faulted .registerOutOfRange 0 9 := by
  decide

/-- V-R1, V-R5, and a full image. -/
theorem test_reset_image : (nextOf (State.resetWith [0x82, 0x00, 0x08])).map
    (fun t => (t.mem.read 0, t.mem.read 1, t.mem.read 2, t.mem.read 3, t.reg 7, t.pc)) =
    some (0x82#8, 0x00#8, 0x08#8, 0x00#8, 0xF4#8, 0#9) := by decide
theorem test_reset_refuses : nextOf (State.resetWith [256]) = none ∧ nextOf (State.resetWith [-1]) = none := by decide
theorem test_reset_refuses_257 : State.resetWith (List.replicate 257 0) = .refused (.imageTooLong 257) := by
  rw [State.resetWith, List.length_replicate]
  rfl
theorem test_fault_report : after (startAt 0 [0x00#8]) State.faultReport = some (some ⟨.unknownOpcode, 0#9, 0⟩) ∧
    State.reset.faultReport = none := by decide

/-! ### Witnesses: states and operands that meet a statement's hypotheses, clause by clause -/

/-- Running, `pc` 253, an LDI whose last byte is at 255: the fetch as far up as it goes. -/
theorem witness_StepRunsDecodedInstruction :
    let s := startAt 253 [0x82#8, 0#8, 7#8]
    let i := Instr.ldi 0#8 7#8
    s.run = .running ∧ s.pc.toNat + (encode i).length ≤ 256 ∧
      ∀ (k : Nat) (h : k < (encode i).length), s.mem.read (s.pc.toNat + k) = (encode i)[k] := by decide

theorem witness_OperandByteNamesRegister :
    (0#8 : Byte).toNat = (0 : RegIdx).val ∧ (7#8 : Byte).toNat = (7 : RegIdx).val ∧ 7 < (8#8 : Byte).toNat ∧
      7 < (255#8 : Byte).toNat := by decide

/-- The three ways to fail, the last at one and at two operand bytes. -/
theorem witness_DecodeFailsExactly :
    0xFF#8 ∉ definedOpcodes ∧ 0x47#8 ∈ definedOpcodes ∧ 0 < operandCount 0x47#8 ∧
      0x82#8 ∈ definedOpcodes ∧ 1 < operandCount 0x82#8 := by decide

theorem witness_StoppedCoreKeepsItsState :
    ({ State.reset with run := .halted } : State).run ≠ .running ∧
      (State.reset.stopped .unknownOpcode 0).run ≠ .running := by decide

/-- `pc` 256, the one value a run reaches, and 511, the largest the register holds. -/
theorem witness_FetchPastEndFaults :
    ((startAt 256 []).run = .running ∧ 255 < (startAt 256 []).pc.toNat) ∧
      ((startAt 511 []).run = .running ∧ 255 < (startAt 511 []).pc.toNat) := by decide

theorem witness_UnknownOpcodeFaults :
    (let s := startAt 0 [0x00#8]
     s.run = .running ∧ s.pc.toNat ≤ 255 ∧ s.mem.read s.pc.toNat ∉ definedOpcodes) ∧
    (let s := startAt 255 [0xFF#8]
     s.run = .running ∧ s.pc.toNat ≤ 255 ∧ s.mem.read s.pc.toNat ∉ definedOpcodes) := by decide

/-- One operand at 255; two operands at 254 and at 255. -/
theorem witness_OperandPastEndFaults :
    ∀ s ∈ [startAt 255 [0x47#8], startAt 254 [0x82#8, 9#8], startAt 255 [0x82#8]],
      s.run = .running ∧ s.pc.toNat ≤ 255 ∧ s.mem.read s.pc.toNat ∈ definedOpcodes ∧
        255 < s.pc.toNat + operandCount (s.mem.read s.pc.toNat) := by decide

theorem witness_BadRegisterOperandFaults :
    (Instr.add 9#8 10#8).firstBadOperand = some 9#8 ∧ (Instr.add 7#8 8#8).firstBadOperand = some 8#8 ∧
      (Instr.jeq 255#8).firstBadOperand = some 255#8 ∧ (Instr.ldi 7#8 255#8).firstBadOperand = none := by decide

/-- Each condition of R132 is the first that holds in some Running state, and in some state none does. -/
theorem witness_FaultOrder :
    (startAt 256 []).run = .running ∧
    (startAt 256 []).cycleFault = some (.addressOutOfRange, 256) ∧
    (startAt 255 [0xFF#8]).cycleFault = some (.unknownOpcode, 255) ∧
    (startAt 255 [0x47#8]).cycleFault = some (.addressOutOfRange, 256) ∧
    (startAt 254 [0xA3#8, 9#8]).cycleFault = some (.addressOutOfRange, 256) ∧
    (startAt 253 [0xA3#8, 8#8, 9#8]).cycleFault = some (.registerOutOfRange, 8) ∧
    (startAt 253 [0xA3#8, 7#8, 9#8]).cycleFault = some (.registerOutOfRange, 9) ∧
    (startAt 253 [0xA4#8, 7#8, 0#8]).cycleFault = some (.divisionByZero, 0xA4) ∧
    (startAt 254 [0x50#8, 7#8]).cycleFault = some (.addressOutOfRange, 256) ∧
    (startAt 253 [0x50#8, 7#8]).cycleFault = none ∧
    (startAt 253 [0x82#8, 7#8, 8#8]).cycleFault = none := by decide

theorem witness_FaultsArePreciseAndTerminal :
    let s := startAt 0 [0xC1#8]
    s.run = .running ∧ nextOf (step s) = some (s.stopped .unknownOpcode 0xC1) ∧
      (s.stopped .unknownOpcode 0xC1).run = .faulted := by decide

/-- An LDI that ends at 255, after which `pc` is 256. -/
theorem witness_AutoAdvanceByOperandCount :
    let s := startAt 253 [0x82#8, 0#8, 7#8]
    s.run = .running ∧ after s (fun t => (t.run, t.pc)) = some (.running, 256#9) ∧
      setsPcBit (s.mem.read s.pc.toNat) = false := by decide

theorem witness_PcStandsOnlyByJumpOrStop :
    let s := setAll (startAt 10 [0x54#8, 1#8]) [(1, 0x0A#8)]
    s.run = .running ∧ after s (fun t => (t.run, t.pc)) = some (.running, s.pc) := by decide

theorem witness_FlagsChangeOnlyByCmp :
    let s := startAt 0 [0xA7#8, 0#8, 1#8]
    after s (fun t => t.flags) = some ⟨true, false, false⟩ ∧ s.flags ≠ ⟨true, false, false⟩ := by decide

theorem witness_HaltedOnlyByHlt :
    let s := startAt 255 [0x01#8]
    s.run = .running ∧ after s (fun t => t.run) = some .halted := by decide

theorem witness_OutputGrowsOnlyByPrn :
    after (startAt 0 [0x47#8, 7#8]) (fun t => t.out) = some [0xF4#8] ∧ after (startAt 0 [0x01#8]) (fun t => t.out) = some [] := by
  decide

/-- A state a PUSH with SP 0 starts from meets the invariant, and the byte at 255 changes. -/
theorem witness_MemoryChangesOnlyAtStackTop :
    let s := setAll (startAt 0 [0x45#8, 0#8]) [(0, 0xAB#8), (7, 0#8)]
    s.Inv ∧ after s (fun t => t.mem.read 255) = some 0xAB#8 ∧ s.mem.read 255 ≠ 0xAB#8 :=
  ⟨⟨by decide, by decide, ⟨by decide, by decide, by decide⟩, by decide, by intro r h; cases h⟩, by decide, by decide⟩

theorem witness_OutputIsNeverRead :
    after { startAt 0 [0x47#8, 7#8] with out := [] } (fun t => t.out) = some [0xF4#8] := by decide

theorem witness_GreaterAndLessAreNeverRead :
    after { setAll (startAt 0 [0x56#8, 2#8]) [(2, 0x30#8)] with flags := ⟨false, true, false⟩ } (fun t => t.pc) =
      some 48#9 := by decide

/-- A Faulted state that meets the invariant, and takes a step. -/
theorem witness_StepKeepsInvariant :
    let s := (startAt 255 [0xFF#8]).stopped .unknownOpcode 0xFF
    s.Inv ∧ (nextOf (step s)).isSome = true :=
  ⟨⟨by decide, by decide, ⟨by decide, by decide, by decide⟩, by decide,
    by intro r h; cases h; exact ⟨by decide, by decide, by decide, by decide⟩⟩, by decide⟩

/-- The empty image, and a full one of the largest byte. -/
theorem witness_ResetLoadsImage :
    (([] : List Int).length ≤ 256 ∧ ∀ v ∈ ([] : List Int), 0 ≤ v ∧ v ≤ 255) ∧
      ((List.replicate 256 (255 : Int)).length ≤ 256 ∧ ∀ v ∈ List.replicate 256 (255 : Int), 0 ≤ v ∧ v ≤ 255) :=
  ⟨by decide, by rw [List.length_replicate], fun v h => by rw [List.eq_of_mem_replicate h]; decide⟩

theorem witness_IllegalImageRefused :
    256 < (List.replicate 257 (0 : Int)).length ∧
      ([0, 256, -1] : List Int).length ≤ 256 ∧ ((256 : Int) < 0 ∨ (255 : Int) < 256) ∧ ((-1 : Int) < 0 ∨ (255 : Int) < -1) := by
  refine ⟨by rw [List.length_replicate]; decide, by decide, by decide, by decide⟩

/-- The faults each instruction shares: the last operand byte past the end, and a register operand above 7. -/
theorem witness_CommonFaults :
    (let s := startAt 255 [0x45#8]
     s.run = .running ∧ s.pc.toNat ≤ 255 ∧ s.mem.read s.pc.toNat = opcodeByte (.push 0#8) ∧
       255 < s.pc.toNat + operandCount (opcodeByte (.push 0#8))) ∧
    (let s := startAt 254 [0xA0#8, 9#8]
     s.run = .running ∧ s.pc.toNat ≤ 255 ∧ s.mem.read s.pc.toNat = opcodeByte (.add 9#8 0#8) ∧
       255 < s.pc.toNat + operandCount (opcodeByte (.add 9#8 0#8))) ∧
    (Instr.push 8#8).firstBadOperand = some 8#8 ∧ (Instr.add 0#8 255#8).firstBadOperand = some 255#8 := by decide

theorem witness_DivModUnsigned : (alu [] 255#8 1#8).reg 1 ≠ 0#8 ∧ (alu [] 0#8 255#8).reg 1 ≠ 0#8 := by decide

/-- A divisor of 0 in another register and in the dividend's own. -/
theorem witness_DivisionByZeroFaults : (alu [] 10#8 0#8).reg 1 = 0#8 ∧ (alu [] 0#8 1#8).reg 0 = 0#8 := by decide

/-- The ends of both clauses: 0 and 7; 8 and 255. -/
theorem witness_ShiftsAreLogical :
    (0#8 : Byte).toNat < 8 ∧ (7#8 : Byte).toNat < 8 ∧ (8#8 : Byte).toNat ≥ 8 ∧ (255#8 : Byte).toNat ≥ 8 := by decide

/-- The three outcomes of a comparison, at 0 and 255. -/
theorem witness_CmpSetsExactlyOneFlag :
    (alu [] 0#8 0#8).reg 0 = (alu [] 0#8 0#8).reg 1 ∧ (255#8 : Byte).toNat > (0#8 : Byte).toNat ∧
      (0#8 : Byte).toNat < (255#8 : Byte).toNat := by decide

/-- Canonical memory: nothing listed, and the highest cell. -/
theorem witness_PushStoresBelowSp :
    Memory.wf [] = true ∧ Memory.wf [(0, 1#8), (255, 255#8)] = true ∧ (3 : RegIdx) ≠ 7 ∧ (7 : RegIdx) = 7 := by decide

theorem witness_PopLoadsFromSp : (0 : RegIdx) ≠ 7 ∧ (6 : RegIdx) ≠ 7 ∧ (7 : RegIdx) = 7 := by decide

/-- The lowest and the highest `pc` a CALL completes at. -/
theorem witness_CallPushesReturnAddress :
    ((startAt 0 [0x50#8, 7#8]).mem.wf = true ∧ (startAt 0 [0x50#8, 7#8]).pc.toNat + 2 ≤ 255) ∧
      ((startAt 253 [0x50#8, 1#8]).mem.wf = true ∧ (startAt 253 [0x50#8, 1#8]).pc.toNat + 2 ≤ 255) := by decide

theorem witness_CallReturnAddressFaults :
    255 < (startAt 254 []).pc.toNat + 2 ∧ 255 < (startAt 255 []).pc.toNat + 2 := by decide

theorem witness_JeqJneFollowEqualFlag :
    ({ State.reset with flags := ⟨true, false, false⟩ } : State).flags.e = true ∧ State.reset.flags.e = false := by decide

/-- ADD of 200 and 100, then SUB (V-A5). -/
theorem witness_SubUndoesAdd :
    (0 : RegIdx) ≠ 1 ∧
      (nextOf (exec (.add (regByte 0) (regByte 1)) (alu [] 200#8 100#8))).bind
        (fun t => (nextOf (exec (.sub (regByte 0) (regByte 1)) t)).map fun u => u.reg 0) = some 200#8 := by decide

/-- PUSH R7, then POP R7 (V-S10). -/
theorem witness_PopUndoesPush :
    State.reset.mem.wf = true ∧
      (nextOf (exec (.push (regByte 7)) State.reset)).bind
        (fun t => (nextOf (exec (.pop (regByte 7)) t)).map fun u => u.reg 7) = some 0xF4#8 := by decide

/-- CALL at 20 to 40, then RET (V-S7). -/
theorem witness_RetReturnsAfterCall :
    let s := setAll (startAt 20 []) [(1, 40#8)]
    s.mem.wf = true ∧ s.pc.toNat + 2 ≤ 255 ∧
      (nextOf (exec (.call (regByte 1)) s)).bind
        (fun t => (nextOf (exec .ret t)).map fun u => (u.pc, u.reg 7)) = some (22#9, 0xF4#8) := by decide

/-- V-S21, whose stored byte is HLT's; and the same with a byte that is no opcode. -/
theorem witness_StoredByteIsFetchedNext :
    (let s := setAll (startAt 0 [0x45#8, 0#8, 0xFF#8]) [(0, 0x01#8), (7, 3#8)]
     s.mem.wf = true ∧ s.run = .running ∧ (nextOf (exec (.push (regByte 0)) s)).isSome = true ∧
       (pushedSp s).toNat = s.pc.toNat + 2 ∧ s.reg 0 = 0x01#8) ∧
    (let s := setAll (startAt 0 [0x45#8, 0#8, 0x01#8]) [(0, 0xFF#8), (7, 3#8)]
     s.mem.wf = true ∧ s.run = .running ∧ (nextOf (exec (.push (regByte 0)) s)).isSome = true ∧
       (pushedSp s).toNat = s.pc.toNat + 2 ∧ s.reg 0 ∉ definedOpcodes) := by decide

end Sys2Proof.Tests
end

/-! ### Proofs for the ALU's family (41_alu.md): the opcode table's rows, the faults every instruction shares, the frames
of the shared shapes, and the two statements that follow from them. -/

namespace Sys2Proof.Machine

open Sys2Proof

/-! #### The rows of the opcode table (R56) -/

/-- Every instruction of the shape is encoded as the opcode, then its operand bytes. -/
def ShapeEncodesAs (op : Byte) : Shape → Prop
  | .op0 i => encode i = [op]
  | .op1 mk => ∀ x, encode (mk x) = [op, x]
  | .op2 mk => ∀ x y, encode (mk x y) = [op, x, y]

/-- How many operand bytes `decodeOperands` reads for a shape. -/
def shapeOperands : Shape → Nat
  | .op0 _ => 0
  | .op1 _ => 1
  | .op2 _ => 2

theorem shapeOperands_le_two (sh : Shape) : shapeOperands sh ≤ 2 := by
  cases sh <;> simp [shapeOperands]

theorem shapeEncodesAs_of_mem_opcodeTable : ∀ row ∈ opcodeTable, ShapeEncodesAs row.1 row.2 := by
  simp [opcodeTable, ShapeEncodesAs, encode]

theorem shapeOperands_of_mem_opcodeTable : ∀ row ∈ opcodeTable, shapeOperands row.2 = operandCount row.1 := by
  simp [opcodeTable, shapeOperands, operandCount]

/-- `definedOpcodes` lists the opcodes of the table's rows in another order. -/
theorem opcodeTable_perm_definedOpcodes : (opcodeTable.map Prod.fst).Perm definedOpcodes := by decide

theorem lookupOpcode_eq_none_iff_notMem {op : Byte} : lookupOpcode op = none ↔ op ∉ definedOpcodes := by
  rw [lookupOpcode_eq_none, ← opcodeTable_perm_definedOpcodes.mem_iff, List.mem_map]
  exact ⟨fun h ⟨row, hrow, he⟩ => h row hrow he.symm, fun h row hrow he => h ⟨row, hrow, he.symm⟩⟩

theorem exists_lookupOpcode_of_mem {op : Byte} (h : op ∈ definedOpcodes) : ∃ sh, lookupOpcode op = some sh :=
  Option.ne_none_iff_exists'.mp fun hn => lookupOpcode_eq_none_iff_notMem.mp hn h

theorem opcodeByte_mem_definedOpcodes (i : Instr) : opcodeByte i ∈ definedOpcodes := by
  cases i <;> simp [opcodeByte, encode, definedOpcodes]

/-! #### What the decoder reads -/

/-- What decodes is the instruction's encoding, then the rest. -/
theorem eq_encode_append_of_decode {bs : List Byte} {i : Instr} {rest : List Byte} (h : decode bs = .ok (i, rest)) :
    bs = encode i ++ rest := by
  cases bs with
  | nil => cases h
  | cons op bs =>
    rw [decode_cons] at h
    cases hl : lookupOpcode op with
    | none => simp [hl] at h
    | some sh =>
      have henc := shapeEncodesAs_of_mem_opcodeTable _ (mem_opcodeTable_of_lookup hl)
      simp only [hl, decodeOperands_eq_ok] at h
      obtain ⟨rfl, rfl⟩ | ⟨mk, x, rfl, rfl, rfl⟩ | ⟨mk, x, y, rfl, rfl, rfl⟩ := h
      · exact congrArg (· ++ bs) (Eq.symm henc)
      · exact congrArg (· ++ rest) (henc x).symm
      · exact congrArg (· ++ rest) (henc x y).symm

/-- A shape that finds too few operand bytes reports the first missing one (R70). -/
theorem decodeOperands_of_length_lt {sh : Shape} {bs : List Byte} (h : bs.length < shapeOperands sh) :
    decodeOperands sh bs = .error (.endOfBytes (bs.length + 1)) := by
  cases sh with
  | op0 i => cases h
  | op1 mk =>
    match bs, h with
    | [], _ => rfl
  | op2 mk =>
    match bs, h with
    | [], _ => rfl
    | [_], _ => rfl

theorem decode_of_length_lt {op : Byte} {bs : List Byte} (hop : op ∈ definedOpcodes)
    (h : bs.length < operandCount op) : decode (op :: bs) = .error (.endOfBytes (bs.length + 1)) := by
  obtain ⟨sh, hl⟩ := exists_lookupOpcode_of_mem hop
  rw [← shapeOperands_of_mem_opcodeTable _ (mem_opcodeTable_of_lookup hl)] at h
  rw [decode_cons, hl]
  exact decodeOperands_of_length_lt h

theorem operandCount_le_two {op : Byte} (hop : op ∈ definedOpcodes) : operandCount op ≤ 2 := by
  obtain ⟨sh, hl⟩ := exists_lookupOpcode_of_mem hop
  exact shapeOperands_of_mem_opcodeTable _ (mem_opcodeTable_of_lookup hl) ▸ shapeOperands_le_two sh

theorem Memory.length_bytesFrom (m : Memory) (n a : Nat) : (m.bytesFrom n a).length = min n (256 - a) := by
  induction n generalizing a with
  | zero => simp
  | succ n ih =>
    rw [Memory.bytesFrom_succ]
    split
    · rw [List.length_cons, ih]; omega
    · rw [List.length_nil]; omega

/-- The byte at `pc` is the opcode of the instruction that is fetched there. -/
theorem State.opcodeByte_of_fetch {s : State} {i : Instr} (h : s.fetch = .ok i) :
    s.mem.read s.pc.toNat = opcodeByte i := by
  obtain ⟨rest, hd⟩ := State.fetch_eq_ok.mp h
  have hbs := eq_encode_append_of_decode hd
  have hne : encode i ≠ [] := by cases i <;> simp [encode]
  obtain ⟨op, ops, henc⟩ := List.exists_cons_of_ne_nil hne
  rw [henc, Memory.bytesFrom_succ] at hbs
  split at hbs
  · rw [opcodeByte, henc]
    exact List.head_eq_of_cons_eq hbs
  · cases hbs

/-! #### The faults every instruction shares (R70, R71) -/

/-- An operand byte that would lie above address 255 stops the cycle (R70). -/
theorem step_of_operand_past_end {s : State} (hr : s.run = .running) (hpc : s.pc.toNat ≤ 255)
    (hop : s.mem.read s.pc.toNat ∈ definedOpcodes)
    (hend : 255 < s.pc.toNat + operandCount (s.mem.read s.pc.toNat)) :
    step s = .next (s.stopped .addressOutOfRange 256) := by
  have hcount := operandCount_le_two hop
  have hlen := s.mem.length_bytesFrom 2 (s.pc.toNat + 1)
  have hdecode : decode (s.mem.bytesFrom 3 s.pc.toNat) =
      .error (.endOfBytes ((s.mem.bytesFrom 2 (s.pc.toNat + 1)).length + 1)) := by
    rw [Memory.bytesFrom_succ, if_pos (by omega)]
    exact decode_of_length_lt hop (by omega)
  rw [← State.raise_eq_stopped]
  exact step_of_fetch_error hr (State.fetch_eq_error.mpr (.inl ⟨_, hdecode, rfl, by omega⟩))

theorem State.withReg_of_firstBad (s : State) {op b : Byte} (k : RegIdx → State)
    (h : [op].find? (fun x => !regByteOk x) = some b) : s.withReg op k = s.raise .registerOutOfRange b.toNat := by
  obtain ⟨r, rfl, -⟩ | ⟨hbad, he⟩ := s.withReg_cases op k
  · simp at h
  · have hop : op = b := by simpa [regByteOk_eq_false.mpr hbad] using h
    rw [he, hop]

theorem State.withRegs_of_firstBad (s : State) {op1 op2 b : Byte} (k : RegIdx → RegIdx → State)
    (h : [op1, op2].find? (fun x => !regByteOk x) = some b) :
    s.withRegs op1 op2 k = s.raise .registerOutOfRange b.toNat := by
  obtain ⟨r, q, rfl, rfl, -⟩ | ⟨hbad, he⟩ | ⟨r, rfl, hbad, he⟩ := s.withRegs_cases op1 op2 k
  · simp at h
  · have hop : op1 = b := by simpa [regByteOk_eq_false.mpr hbad] using h
    rw [he, hop]
  · have hop : op2 = b := by simpa [regByteOk_eq_false.mpr hbad] using h
    rw [he, hop]

/-- A register operand above 7 stops every instruction, before any write (R71). -/
theorem exec_of_firstBadOperand {i : Instr} {b : Byte} (s : State) (h : i.firstBadOperand = some b) :
    exec i s = .next (s.stopped .registerOutOfRange b.toNat) := by
  cases i with
  | hlt | ret => cases h
  | ldi r _ | prn r | push r | pop r | call r | jeq r | jne r | jmp r | not r =>
    exact congrArg Host.Outcome.next (s.withReg_of_firstBad _ h)
  | add x y | sub x y | mul x y | div x y | mod x y | cmp x y | and x y | or x y | xor x y | shl x y | shr x y =>
    exact congrArg Host.Outcome.next (s.withRegs_of_firstBad _ h)

theorem commonFaults (i : Instr) : CommonFaults i := by
  refine ⟨fun s hr hpc hop hend => ?_, fun s b h => exec_of_firstBadOperand s h⟩
  rw [← hop] at hend
  exact step_of_operand_past_end hr hpc (hop ▸ opcodeByte_mem_definedOpcodes i) hend

/-! #### An ALU instruction that writes its first register (R80) -/

/-- A register write and the auto-advance leave everything else as it was. -/
theorem State.onlyWrites_setReg_advance (s : State) (r : RegIdx) (v : Byte) (n : Nat) :
    OnlyWrites [r] [] s ((s.setReg r v).advance n) := by
  refine ⟨fun q hq => ?_, fun _ _ => rfl, rfl, rfl, rfl, rfl⟩
  rw [State.advance_reg, s.setReg_reg_other v (List.ne_of_not_mem_cons hq)]

/-- An instruction whose meaning is `aluWrite` of `f` writes what `f` gives, and nothing else. -/
theorem aluWrites_of_exec {mk : Byte → Byte → Instr} {opcode : Byte} {post : Byte → Byte → Byte → Prop}
    {f : Byte → Byte → Byte} (hencode : ∀ a b, encode (mk a b) = [opcode, a, b])
    (hexec : ∀ a b s, exec (mk a b) s = .next (s.aluWrite a b f)) (hpost : ∀ x y, post x y (f x y)) :
    AluWrites mk opcode post := by
  refine ⟨fun a b => ⟨hencode a b, commonFaults _⟩, fun a b s => ?_⟩
  refine ⟨(s.setReg a (f (s.reg a) (s.reg b))).advance 3, ?_, ?_, rfl, s.onlyWrites_setReg_advance a _ 3⟩
  · rw [hexec, State.aluWrite_regByte]
  · rw [State.advance_reg, State.setReg_reg_same]
    exact hpost _ _

/-- Settles O34: the three meanings are `aluWrite` of the bitwise operations (R86 to R88). -/
theorem andOrXorBitwise : Obligations.AndOrXorBitwise :=
  ⟨aluWrites_of_exec (fun _ _ => rfl) (fun _ _ _ => rfl) fun _ _ _ _ => BitVec.getLsbD_and,
   aluWrites_of_exec (fun _ _ => rfl) (fun _ _ _ => rfl) fun _ _ _ _ => BitVec.getLsbD_or,
   aluWrites_of_exec (fun _ _ => rfl) (fun _ _ _ => rfl) fun _ _ _ _ => BitVec.getLsbD_xor⟩

/-! #### Who writes the flags (R94) -/

theorem State.withReg_flags (s : State) (op : Byte) {k : RegIdx → State} (hk : ∀ r, (k r).flags = s.flags) :
    (s.withReg op k).flags = s.flags := by
  obtain ⟨r, -, he⟩ | ⟨-, he⟩ := s.withReg_cases op k
  · rw [he, hk]
  · rw [he, State.raise_flags]

theorem State.withRegs_flags (s : State) (op1 op2 : Byte) {k : RegIdx → RegIdx → State}
    (hk : ∀ a b, (k a b).flags = s.flags) : (s.withRegs op1 op2 k).flags = s.flags :=
  s.withReg_flags op1 fun a => s.withReg_flags op2 (hk a)

/-- Every meaning but CMP's leaves the flags, whether it completes or faults. -/
theorem exec_flags {i : Instr} {s t : State} (h : exec i s = .next t) :
    (∃ a b, i = .cmp a b) ∨ t.flags = s.flags := by
  cases i with
  | cmp a b => exact .inl ⟨a, b, rfl⟩
  | hlt | ret => cases h; exact .inr rfl
  | ldi r _ | prn r | push r | pop r | jmp r | not r =>
    cases h; exact .inr (s.withReg_flags r fun _ => rfl)
  | jeq r | jne r =>
    cases h
    refine .inr (s.withReg_flags r fun _ => ?_)
    split <;> rfl
  | call r =>
    cases h
    refine .inr (s.withReg_flags r fun _ => ?_)
    dsimp only
    split <;> rfl
  | add x y | sub x y | mul x y | and x y | or x y | xor x y | shl x y | shr x y =>
    cases h; exact .inr (s.withRegs_flags x y fun _ _ => rfl)
  | div x y | mod x y =>
    cases h
    refine .inr (s.withRegs_flags x y fun _ _ => ?_)
    split <;> rfl

/-- Settles O16: a stopped core, a fetch fault and every meaning but CMP's leave the flags, and CMP is fetched from its
own opcode only. -/
theorem flagsChangeOnlyByCmp : Obligations.FlagsChangeOnlyByCmp := by
  intro s t hstep hne
  obtain ⟨-, hs⟩ | ⟨hr, i, hf, hs⟩ | ⟨-, c, n, -, hs⟩ := step_cases s
  · obtain rfl := Host.Outcome.next.inj (hs.symm.trans hstep)
    exact absurd rfl hne
  · obtain ⟨a, b, rfl⟩ | hflags := exec_flags (hs.symm.trans hstep)
    · exact ⟨hr, State.opcodeByte_of_fetch hf⟩
    · exact absurd hflags hne
  · obtain rfl := Host.Outcome.next.inj (hs.symm.trans hstep)
    exact absurd (State.raise_flags s c n) hne

end Sys2Proof.Machine

/-! ### Proofs for data movement (42_data_movement.md): LDI. -/

namespace Sys2Proof.Machine

open Sys2Proof

/-- LDI to a register an operand byte names (R100): it completes, whatever the immediate. -/
theorem exec_ldi_regByte (r : RegIdx) (imm : Byte) (s : State) :
    exec (.ldi (regByte r) imm) s = .next ((s.setReg r imm).advance 3) :=
  congrArg Host.Outcome.next (s.withReg_regByte r _)

/-- Settles O27: LDI is one register write and the auto-advance (R100); its faults are those every instruction shares. -/
theorem ldiLoadsImmediate : Obligations.LdiLoadsImmediate := by
  refine ⟨fun r imm => ⟨rfl, commonFaults _⟩, fun r imm s => ?_⟩
  refine ⟨(s.setReg r imm).advance 3, exec_ldi_regByte r imm s, ?_, rfl, s.onlyWrites_setReg_advance r imm 3⟩
  rw [State.advance_reg, State.setReg_reg_same]

end Sys2Proof.Machine

/-! ### Proofs for the stack and subroutines (43_stack_subroutine.md): RET. -/

namespace Sys2Proof.Machine

open Sys2Proof

/-- The byte a jump puts into the 9-bit `pc` keeps its value (R18). -/
theorem State.jumpTo_pc_toNat (s : State) (target : Byte) : (s.jumpTo target).pc.toNat = target.toNat :=
  BitVec.toNat_setWidth_of_le (by decide)

/-- Dropping the top of the stack after a jump leaves all but SP and `pc` as it was (R18, R105). -/
theorem State.onlyWrites_jumpTo_dropTop (s : State) (target : Byte) :
    OnlyWrites [7] [] s ((s.jumpTo target).dropTop) := by
  refine ⟨fun q hq => ?_, fun _ _ => rfl, rfl, rfl, rfl, rfl⟩
  rw [State.dropTop_reg, if_neg (List.ne_of_not_mem_cons hq), State.jumpTo_reg]

/-- Settles O42: RET is a jump to the byte at SP, then SP plus 1 (R109); the jump leaves SP as it was. -/
theorem retPopsPc : Obligations.RetPopsPc := by
  refine ⟨rfl, fun s => ⟨(s.jumpTo s.top).dropTop, rfl, ?_, ?_, s.onlyWrites_jumpTo_dropTop s.top⟩⟩
  · rw [State.dropTop_pc]
    exact s.jumpTo_pc_toNat s.top
  · rw [State.dropTop_reg, if_pos rfl, State.jumpTo_sp, State.sp_eq_reg]
    exact BitVec.toNat_add (s.reg 7) 1#8

end Sys2Proof.Machine

/-! ### Proofs for control flow (44_control_flow.md): JMP, JEQ, JNE. -/

namespace Sys2Proof.Machine

open Sys2Proof

/-! #### Where a jump leaves the machine: a move of `pc` alone (R17, R18) -/

theorem State.onlyWrites_jumpTo (s : State) (target : Byte) : OnlyWrites [] [] s (s.jumpTo target) :=
  ⟨fun _ _ => rfl, fun _ _ => rfl, rfl, rfl, rfl, rfl⟩

theorem State.onlyWrites_advance (s : State) (n : Nat) : OnlyWrites [] [] s (s.advance n) :=
  ⟨fun _ _ => rfl, fun _ _ => rfl, rfl, rfl, rfl, rfl⟩

/-! #### The jumps to a register an operand byte names (R116, R117, R118) -/

theorem exec_jmp_regByte (r : RegIdx) (s : State) : exec (.jmp (regByte r)) s = .next (s.jumpTo (s.reg r)) :=
  congrArg Host.Outcome.next (s.withReg_regByte r _)

theorem exec_jeq_regByte (r : RegIdx) (s : State) :
    exec (.jeq (regByte r)) s = .next (if s.flags.e then s.jumpTo (s.reg r) else s.advance 2) :=
  congrArg Host.Outcome.next (s.withReg_regByte r _)

theorem exec_jne_regByte (r : RegIdx) (s : State) :
    exec (.jne (regByte r)) s = .next (if s.flags.e then s.advance 2 else s.jumpTo (s.reg r)) :=
  congrArg Host.Outcome.next (s.withReg_regByte r _)

/-- Settles O44: by the Equal flag, one of JEQ and JNE jumps and the other advances by 2; both only move `pc`. -/
theorem jeqJneFollowEqualFlag : Obligations.JeqJneFollowEqualFlag := by
  refine ⟨fun r => ⟨rfl, commonFaults _⟩, fun r => ⟨rfl, commonFaults _⟩, fun r s => ?_⟩
  have hpc := s.jumpTo_pc_toNat (s.reg r)
  have hjump := s.onlyWrites_jumpTo (s.reg r)
  have hadvance := s.onlyWrites_advance 2
  rw [exec_jeq_regByte, exec_jne_regByte]
  cases s.flags.e with
  | true => exact ⟨_, _, rfl, rfl, fun _ => ⟨hpc, rfl⟩, nofun, hjump, hadvance⟩
  | false => exact ⟨_, _, rfl, rfl, nofun, fun _ => ⟨rfl, hpc⟩, hadvance, hjump⟩

/-- Settles O43: JMP is a jump to the register's byte, whatever the flags (R116). -/
theorem jmpGoesToRegister : Obligations.JmpGoesToRegister :=
  ⟨fun _ => ⟨rfl, commonFaults _⟩,
   fun r s => ⟨s.jumpTo (s.reg r), exec_jmp_regByte r s, s.jumpTo_pc_toNat _, s.onlyWrites_jumpTo _⟩⟩

end Sys2Proof.Machine

/-! ### Proofs for encoding and decoding (30_encoding.md): the round trip, and when decoding fails. -/

namespace Sys2Proof.Laws.RoundTrip

open Sys2Proof

/-- The per-constructor laws together: the decoder reads every instruction's encoding back. -/
theorem all : ∀ i, Statement i
  | .ldi r imm => ldi r imm | .prn r => prn r | .hlt => hlt
  | .add a b => add a b | .sub a b => sub a b | .mul a b => mul a b | .div a b => div a b | .mod a b => mod a b
  | .push r => push r | .pop r => pop r | .call r => call r | .ret => ret
  | .cmp a b => cmp a b | .jeq r => jeq r | .jne r => jne r | .jmp r => jmp r
  | .and a b => and a b | .or a b => or a b | .not a => not a | .xor a b => xor a b
  | .shl a b => shl a b | .shr a b => shr a b

end Sys2Proof.Laws.RoundTrip

namespace Sys2Proof.Laws.OpcodeBits

open Sys2Proof

/-- The per-constructor laws together: what the bits of every instruction's opcode say (R51, R58). -/
theorem all : ∀ i, Statement i
  | .ldi r imm => ldi r imm | .prn r => prn r | .hlt => hlt
  | .add a b => add a b | .sub a b => sub a b | .mul a b => mul a b | .div a b => div a b | .mod a b => mod a b
  | .push r => push r | .pop r => pop r | .call r => call r | .ret => ret
  | .cmp a b => cmp a b | .jeq r => jeq r | .jne r => jne r | .jmp r => jmp r
  | .and a b => and a b | .or a b => or a b | .not a => not a | .xor a b => xor a b
  | .shl a b => shl a b | .shr a b => shr a b

end Sys2Proof.Laws.OpcodeBits

namespace Sys2Proof.Machine

open Sys2Proof

/-- Settles O2: what decodes is an encoding (each row of the table encodes as its opcode), and every encoding is read
back. -/
theorem decodeEncodeAgree : Obligations.DecodeEncodeAgree := by
  refine fun bs i rest => ⟨eq_encode_append_of_decode, ?_⟩
  rintro rfl
  exact Laws.RoundTrip.all i rest

/-- Reading operands fails only for want of bytes, and then names the first missing one (R70). -/
theorem decodeOperands_eq_error {sh : Shape} {bs : List Byte} {e : DecodeError} :
    decodeOperands sh bs = .error e ↔ bs.length < shapeOperands sh ∧ e = .endOfBytes (bs.length + 1) := by
  cases sh with
  | op0 i => simp [decodeOperands, shapeOperands]
  | op1 mk =>
    match bs with
    | [] => simp [decodeOperands, shapeOperands, eq_comm]
    | _ :: _ => simp [decodeOperands, shapeOperands]
  | op2 mk =>
    match bs with
    | [] => simp [decodeOperands, shapeOperands, eq_comm]
    | [_] => simp [decodeOperands, shapeOperands, eq_comm]
    | _ :: _ :: _ => simp [decodeOperands, shapeOperands]

/-- Settles O3: by whether there is a first byte, whether it is an opcode, and whether its shape finds its operands. -/
theorem decodeFailsExactly : Obligations.DecodeFailsExactly := by
  intro bs e
  cases bs with
  | nil => simp [decode, eq_comm]
  | cons op rest =>
    rw [decode_cons]
    cases hl : lookupOpcode op with
    | none =>
      have hop := lookupOpcode_eq_none_iff_notMem.mp hl
      simp [hop, eq_comm]
    | some sh =>
      have hop : op ∈ definedOpcodes := by
        by_contra hop
        simp [lookupOpcode_eq_none_iff_notMem.mpr hop] at hl
      have hcount := shapeOperands_of_mem_opcodeTable _ (mem_opcodeTable_of_lookup hl)
      simp [decodeOperands_eq_error, hop, hcount]

/-- Settles O1: eight encodings and nothing after them, each read back. -/
theorem tableWordsDecode : Obligations.TableWordsDecode :=
  ⟨Laws.RoundTrip.all (.ldi 3#8 255#8) [], Laws.RoundTrip.all (.prn 2#8) [], Laws.RoundTrip.all .hlt [],
   Laws.RoundTrip.all (.add 1#8 2#8) [], Laws.RoundTrip.all (.not 5#8) [], Laws.RoundTrip.all (.push 7#8) [],
   Laws.RoundTrip.all .ret [], Laws.RoundTrip.all (.jne 4#8) []⟩

/-- Settles O4: the byte is compared as a whole with 8, and its value is the index. -/
theorem operandByteNamesRegister : Obligations.OperandByteNamesRegister := by
  refine fun op => ⟨fun r => ⟨fun h => ?_, fun h => ?_⟩, regIndex_isNone, regIndex_of_gt⟩
  · rw [regByte_of_regIndex h, regByte_toNat]
  · simp [regIndex, h, r.isLt]

end Sys2Proof.Machine

/-! ### Proofs for the cycle (40_dispatcher.md): the fetch, and the faults it raises. -/

namespace Sys2Proof.Machine

open Sys2Proof

/-! #### What is fetched (R67 to R70) -/

theorem Memory.getElem_bytesFrom (m : Memory) (n a k : Nat) (h : k < (m.bytesFrom n a).length) :
    (m.bytesFrom n a)[k] = m.read (a + k) := by
  induction n generalizing a k with
  | zero => cases h
  | succ n ih =>
    have ha : a < 256 := by rw [Memory.length_bytesFrom] at h; omega
    simp only [Memory.bytesFrom_succ, if_pos ha]
    cases k with
    | zero => rfl
    | succ k => rw [List.getElem_cons_succ, ih, Nat.add_right_comm, Nat.add_assoc]

theorem encode_length_pos (i : Instr) : 0 < (encode i).length := by
  rw [(Laws.OpcodeBits.all i).1]; exact Nat.succ_pos _

theorem encode_length_le_three (i : Instr) : (encode i).length ≤ 3 := by
  rw [(Laws.OpcodeBits.all i).1]
  exact Nat.succ_le_succ (operandCount_le_two (opcodeByte_mem_definedOpcodes i))

/-- An instruction is fetched exactly when its bytes stand at `pc`, all at addresses up to 255. -/
theorem State.fetch_eq_ok_iff_read {s : State} {i : Instr} :
    s.fetch = .ok i ↔ s.pc.toNat + (encode i).length ≤ 256 ∧
      ∀ (k : Nat) (h : k < (encode i).length), s.mem.read (s.pc.toNat + k) = (encode i)[k] := by
  have hpos := encode_length_pos i
  have hle := encode_length_le_three i
  have hprefix : s.fetch = .ok i ↔ encode i <+: s.mem.bytesFrom 3 s.pc.toNat := by
    simp only [State.fetch_eq_ok, decodeEncodeAgree _ i, List.IsPrefix, @eq_comm _ (encode i ++ _)]
  simp only [hprefix, List.prefix_iff_getElem, Memory.length_bytesFrom, Memory.getElem_bytesFrom]
  exact ⟨fun ⟨hlen, hread⟩ => ⟨by omega, fun k h => (hread k h).symm⟩,
    fun ⟨hlen, hread⟩ => ⟨by omega, fun k h => (hread k h).symm⟩⟩

/-- Settles O5: the instruction whose bytes stand at `pc` is the one fetched. -/
theorem stepRunsDecodedInstruction : Obligations.StepRunsDecodedInstruction :=
  fun _ _ hr hlen hread => step_of_fetch_ok hr (State.fetch_eq_ok_iff_read.mpr ⟨hlen, hread⟩)

/-! #### The faults of the fetch -/

theorem State.fetch_of_pc_past_end {s : State} (hpc : 255 < s.pc.toNat) :
    s.fetch = .error (.addressOutOfRange, s.pc.toNat) := by
  have hbytes : s.mem.bytesFrom 3 s.pc.toNat = [] := by rw [Memory.bytesFrom_succ, if_neg (by omega)]
  exact State.fetch_eq_error.mpr (.inl ⟨0, by rw [hbytes]; rfl, rfl, rfl⟩)

theorem State.fetch_of_unknown {s : State} (hpc : s.pc.toNat ≤ 255)
    (hop : s.mem.read s.pc.toNat ∉ definedOpcodes) :
    s.fetch = .error (.unknownOpcode, (s.mem.read s.pc.toNat).toNat) := by
  refine State.fetch_eq_error.mpr (.inr ⟨_, ?_, rfl, rfl⟩)
  rw [Memory.bytesFrom_succ, if_pos (by omega), decode_cons, lookupOpcode_eq_none_iff_notMem.mpr hop]

/-- Settles O6: the step of a stopped core is the one case of `step_cases` that is not Running's. -/
theorem stoppedCoreKeepsItsState : Obligations.StoppedCoreKeepsItsState := by
  intro s hr
  obtain ⟨-, hs⟩ | ⟨hr', -⟩ | ⟨hr', -⟩ := step_cases s
  · exact hs
  · exact absurd hr' hr
  · exact absurd hr' hr

/-- Settles O7: no byte is fetched above 255, and the first that is missing is the opcode. -/
theorem fetchPastEndFaults : Obligations.FetchPastEndFaults :=
  fun _ hr hpc => step_of_fetch_error hr (State.fetch_of_pc_past_end hpc)

/-- Settles O8: the lookup of the opcode fails before any operand is read. -/
theorem unknownOpcodeFaults : Obligations.UnknownOpcodeFaults :=
  fun _ hr hpc hop => step_of_fetch_error hr (State.fetch_of_unknown hpc hop)

/-- Settles O9: the decoder reports the first operand byte that is missing, whose address is 256. -/
theorem operandPastEndFaults : Obligations.OperandPastEndFaults :=
  fun _ hr hpc hop hend => step_of_operand_past_end hr hpc hop hend

/-- Settles O10: each meaning checks its register operands in order before anything else. -/
theorem badRegisterOperandFaults : Obligations.BadRegisterOperandFaults := by
  refine fun i s => ⟨fun b h => exec_of_firstBadOperand s h, ?_⟩
  simp [Instr.firstBadOperand, Instr.wf]

end Sys2Proof.Machine

/-! ### Proofs for the cycle as a whole (40_dispatcher.md, 60_exceptions.md): what an instruction can do, which fault a
cycle raises, and the statements about every step that follow from the two. -/

namespace Sys2Proof.Machine

open Sys2Proof

/-! #### The meanings on operand bytes that name registers -/

section
variable (r a b : RegIdx) (s : State)

theorem exec_prn_regByte : exec (.prn (regByte r)) s = .next ((s.emit (s.reg r)).advance 2) :=
  congrArg Host.Outcome.next (s.withReg_regByte r _)

theorem exec_not_regByte : exec (.not (regByte r)) s = .next ((s.setReg r (aluNot (s.reg r))).advance 2) :=
  congrArg Host.Outcome.next (s.withReg_regByte r _)

theorem exec_cmp_regByte :
    exec (.cmp (regByte a) (regByte b)) s = .next ((s.setFlags (cmpFlags (s.reg a) (s.reg b))).advance 3) :=
  congrArg Host.Outcome.next (s.withRegs_regByte a b _)

theorem exec_div_regByte :
    exec (.div (regByte a) (regByte b)) s = .next (if s.reg b = 0#8 then s.raise .divisionByZero 0xA3
      else (s.setReg a (aluDiv (s.reg a) (s.reg b))).advance 3) :=
  congrArg Host.Outcome.next (s.aluDivide_regByte 0xA3#8 a b aluDiv)

theorem exec_mod_regByte :
    exec (.mod (regByte a) (regByte b)) s = .next (if s.reg b = 0#8 then s.raise .divisionByZero 0xA4
      else (s.setReg a (aluMod (s.reg a) (s.reg b))).advance 3) :=
  congrArg Host.Outcome.next (s.aluDivide_regByte 0xA4#8 a b aluMod)

theorem exec_push_regByte : exec (.push (regByte r)) s = .next ((s.push fun s' => s'.reg r).advance 2) :=
  congrArg Host.Outcome.next (s.withReg_regByte r _)

theorem exec_pop_regByte : exec (.pop (regByte r)) s = .next (((s.setReg r s.top).dropTop).advance 2) :=
  congrArg Host.Outcome.next (s.withReg_regByte r _)

/-- The byte CALL pushes: the address of the byte after it (R108). -/
def State.returnByte (s : State) : Byte := BitVec.ofNat 8 (s.pc.toNat + 2)

theorem exec_call_regByte :
    exec (.call (regByte r)) s = .next (if 255 < s.pc.toNat + 2 then s.raise .addressOutOfRange (s.pc.toNat + 2)
      else (s.push fun _ => s.returnByte).jumpTo ((s.push fun _ => s.returnByte).reg r)) :=
  congrArg Host.Outcome.next (s.withReg_regByte r _)

end

/-! #### What an instruction can do -/

/-- The ways an instruction completes from a state; `exec_cases` ties this to `exec`. -/
inductive Completes (s : State) : Instr → State → Prop
  | write {i} (r : RegIdx) (v : Byte) (h : i.setsPc = false) :
      Completes s i ((s.setReg r v).advance (encode i).length)
  | cmp (a b x y : Byte) : Completes s (.cmp a b) ((s.setFlags (cmpFlags x y)).advance 3)
  | prn (x v : Byte) : Completes s (.prn x) ((s.emit v).advance 2)
  | hlt : Completes s .hlt s.halt
  | push (x : Byte) (v : State → Byte) : Completes s (.push x) ((s.push v).advance 2)
  | pop (x : Byte) (r : RegIdx) : Completes s (.pop x) (((s.setReg r s.top).dropTop).advance 2)
  | call (x target : Byte) (v : State → Byte) : Completes s (.call x) ((s.push v).jumpTo target)
  | ret : Completes s .ret ((s.jumpTo s.top).dropTop)
  | jump {i} (target : Byte) (h : i.setsPc = true) : Completes s i (s.jumpTo target)
  | skip {i} (h : i.setsPc = true) : Completes s i (s.advance (encode i).length)

/-- The fault of an instruction whose register operands are registers: a divisor of 0 (R127), CALL's return address
above 255 (R108). -/
def ownFault : Instr → State → Option (Fault × Nat)
  | .div _ b, s => if s.regAt b.toNat = 0#8 then some (.divisionByZero, 0xA3) else none
  | .mod _ b, s => if s.regAt b.toNat = 0#8 then some (.divisionByZero, 0xA4) else none
  | .call _, s => if 255 < s.pc.toNat + 2 then some (.addressOutOfRange, s.pc.toNat + 2) else none
  | _, _ => none

/-- The fault an instruction's meaning raises: its first bad register operand (R71) before its own. -/
def execFault (i : Instr) (s : State) : Option (Fault × Nat) :=
  match i.firstBadOperand with
  | some b => some (.registerOutOfRange, b.toNat)
  | none => ownFault i s

theorem State.regAt_val (s : State) (r : RegIdx) : s.regAt r.val = s.reg r := by
  simp [State.regAt, State.reg]

theorem exists_regByte_of_ok {op : Byte} (h : regByteOk op = true) : ∃ r, op = regByte r :=
  ⟨⟨op.toNat, of_decide_eq_true h⟩, by simp [regByte]⟩

theorem exec_cases_of_registers {i : Instr} (s : State) (h : ∀ b ∈ i.regOperands, ∃ r, b = regByte r) :
    (∃ c n, ownFault i s = some (c, n) ∧ exec i s = .next (s.raise c n)) ∨
      (ownFault i s = none ∧ ∃ t, exec i s = .next t ∧ Completes s i t) := by
  cases i with
  | hlt => exact .inr ⟨rfl, _, rfl, .hlt⟩
  | ret => exact .inr ⟨rfl, _, rfl, .ret⟩
  | ldi x imm =>
    obtain ⟨r, rfl⟩ := h x List.mem_cons_self
    exact .inr ⟨rfl, _, exec_ldi_regByte r imm s, .write r imm rfl⟩
  | prn x =>
    obtain ⟨r, rfl⟩ := h x List.mem_cons_self
    exact .inr ⟨rfl, _, exec_prn_regByte r s, .prn _ _⟩
  | push x =>
    obtain ⟨r, rfl⟩ := h x List.mem_cons_self
    exact .inr ⟨rfl, _, exec_push_regByte r s, .push _ _⟩
  | pop x =>
    obtain ⟨r, rfl⟩ := h x List.mem_cons_self
    exact .inr ⟨rfl, _, exec_pop_regByte r s, .pop _ r⟩
  | jmp x =>
    obtain ⟨r, rfl⟩ := h x List.mem_cons_self
    exact .inr ⟨rfl, _, exec_jmp_regByte r s, .jump _ rfl⟩
  | jeq x =>
    obtain ⟨r, rfl⟩ := h x List.mem_cons_self
    refine .inr ⟨rfl, _, exec_jeq_regByte r s, ?_⟩
    split
    · exact .jump _ rfl
    · exact .skip rfl
  | jne x =>
    obtain ⟨r, rfl⟩ := h x List.mem_cons_self
    refine .inr ⟨rfl, _, exec_jne_regByte r s, ?_⟩
    split
    · exact .skip rfl
    · exact .jump _ rfl
  | call x =>
    obtain ⟨r, rfl⟩ := h x List.mem_cons_self
    rw [exec_call_regByte]
    by_cases hend : 255 < s.pc.toNat + 2
    · exact .inl ⟨_, _, if_pos hend, congrArg _ (if_pos hend)⟩
    · exact .inr ⟨if_neg hend, _, congrArg _ (if_neg hend), .call _ _ _⟩
  | not x =>
    obtain ⟨r, rfl⟩ := h x List.mem_cons_self
    exact .inr ⟨rfl, _, exec_not_regByte r s, .write r _ rfl⟩
  | cmp x y =>
    obtain ⟨a, rfl⟩ := h x List.mem_cons_self
    obtain ⟨b, rfl⟩ := h y (List.mem_cons_of_mem _ List.mem_cons_self)
    exact .inr ⟨rfl, _, exec_cmp_regByte a b s, .cmp _ _ _ _⟩
  | div x y | mod x y =>
    obtain ⟨a, rfl⟩ := h x List.mem_cons_self
    obtain ⟨b, rfl⟩ := h y (List.mem_cons_of_mem _ List.mem_cons_self)
    simp only [exec_div_regByte, exec_mod_regByte, ownFault, regByte_toNat, State.regAt_val]
    by_cases hz : s.reg b = 0#8
    · exact .inl ⟨_, _, if_pos hz, congrArg _ (if_pos hz)⟩
    · exact .inr ⟨if_neg hz, _, congrArg _ (if_neg hz), .write a _ rfl⟩
  | add x y | sub x y | mul x y | and x y | or x y | xor x y | shl x y | shr x y =>
    obtain ⟨a, rfl⟩ := h x List.mem_cons_self
    obtain ⟨b, rfl⟩ := h y (List.mem_cons_of_mem _ List.mem_cons_self)
    exact .inr ⟨rfl, _, congrArg Host.Outcome.next (s.aluWrite_regByte a b _), .write a _ rfl⟩

/-- Everything an instruction can do: raise its fault, or complete in one of the ways of `Completes`. -/
theorem exec_cases (i : Instr) (s : State) :
    (∃ c n, execFault i s = some (c, n) ∧ exec i s = .next (s.raise c n)) ∨
      (execFault i s = none ∧ ∃ t, exec i s = .next t ∧ Completes s i t) := by
  unfold execFault
  cases hb : i.firstBadOperand with
  | some b => exact .inl ⟨_, _, rfl, exec_of_firstBadOperand s hb⟩
  | none =>
    refine exec_cases_of_registers s fun b hmem => exists_regByte_of_ok ?_
    simpa using List.find?_eq_none.mp hb b hmem

/-! #### The fault order (R132) -/

theorem Memory.bytesFrom_eq_cons {m : Memory} {n a : Nat} {op : Byte} {rest : List Byte}
    (h : m.bytesFrom (n + 1) a = op :: rest) : a ≤ 255 ∧ m.read a = op ∧ rest.length = min n (255 - a) := by
  rw [Memory.bytesFrom_succ] at h
  split at h
  · obtain ⟨hop, hrest⟩ := List.cons.inj h
    have hlen := m.length_bytesFrom n (a + 1)
    rw [hrest] at hlen
    exact ⟨by omega, hop, by omega⟩
  · cases h

/-- A fetch fails in one of three ways: no opcode byte, no opcode, or an operand byte past the end (R66 to R70). -/
theorem State.fetch_error_cases {s : State} {c : Fault} {n : Nat} (h : s.fetch = .error (c, n)) :
    (255 < s.pc.toNat ∧ c = .addressOutOfRange ∧ n = s.pc.toNat) ∨
      (s.pc.toNat ≤ 255 ∧ s.mem.read s.pc.toNat ∉ definedOpcodes ∧ c = .unknownOpcode ∧
        n = (s.mem.read s.pc.toNat).toNat) ∨
      (s.pc.toNat ≤ 255 ∧ s.mem.read s.pc.toNat ∈ definedOpcodes ∧
        255 < s.pc.toNat + operandCount (s.mem.read s.pc.toNat) ∧ c = .addressOutOfRange ∧ n = 256) := by
  obtain ⟨k, hd, rfl, rfl⟩ | ⟨b, hd, rfl, rfl⟩ := State.fetch_eq_error.mp h
  · obtain ⟨hbs, he⟩ | ⟨_, _, _, _, he⟩ | ⟨op, rest, hbs, hop, hlt, he⟩ := (decodeFailsExactly _ _).mp hd
    · have hlen := s.mem.length_bytesFrom 3 s.pc.toNat
      rw [hbs, List.length_nil] at hlen
      cases he
      exact .inl ⟨by omega, rfl, rfl⟩
    · cases he
    · obtain ⟨hpc, rfl, hlen⟩ := Memory.bytesFrom_eq_cons hbs
      have hcount := operandCount_le_two hop
      cases he
      exact .inr (.inr ⟨hpc, hop, by omega, rfl, by omega⟩)
  · obtain ⟨_, he⟩ | ⟨op, rest, hbs, hop, he⟩ | ⟨_, _, _, _, _, he⟩ := (decodeFailsExactly _ _).mp hd
    · cases he
    · obtain ⟨hpc, rfl, -⟩ := Memory.bytesFrom_eq_cons hbs
      cases he
      exact .inr (.inl ⟨hpc, hop, rfl, rfl⟩)
    · cases he

theorem State.cycleFault_of_fetch_error {s : State} {c : Fault} {n : Nat} (h : s.fetch = .error (c, n)) :
    s.cycleFault = some (c, n) := by
  obtain ⟨hpc, rfl, rfl⟩ | ⟨hpc, hop, rfl, rfl⟩ | ⟨hpc, hop, hend, rfl, rfl⟩ := State.fetch_error_cases h
  · exact if_pos hpc
  · rw [State.cycleFault, if_neg (Nat.not_lt.mpr hpc), if_pos hop]
  · have hcount := operandCount_le_two hop
    rw [State.cycleFault, if_neg (Nat.not_lt.mpr hpc), if_neg (not_not.mpr hop)]
    by_cases hlast : s.pc.toNat = 255
    · rw [if_pos (by omega), hlast]
    · rw [if_neg (by omega), if_pos (by omega), show s.pc.toNat = 254 by omega]

theorem find?_not_regByteOk_cons (x : Byte) (xs : List Byte) :
    (x :: xs).find? (fun b => !regByteOk b) =
      if x.toNat > 7 then some x else xs.find? (fun b => !regByteOk b) := by
  by_cases hx : x.toNat > 7
  · rw [if_pos hx, List.find?_cons_of_pos (by simp [regByteOk_eq_false.mpr hx])]
  · rw [if_neg hx, List.find?_cons_of_neg (by simpa [regByteOk_eq_false] using hx)]

theorem execFault_of_regOperands_nil {i : Instr} (h : i.regOperands = []) (s : State) :
    execFault i s = ownFault i s := by
  rw [execFault, Instr.firstBadOperand, h, List.find?_nil]

theorem execFault_of_regOperands_one {i : Instr} {x : Byte} (h : i.regOperands = [x]) (s : State) :
    execFault i s = if x.toNat > 7 then some (.registerOutOfRange, x.toNat) else ownFault i s := by
  rw [execFault, Instr.firstBadOperand, h, find?_not_regByteOk_cons, List.find?_nil]
  by_cases hx : x.toNat > 7
  · simp only [if_pos hx]
  · simp only [if_neg hx]

theorem execFault_of_regOperands_two {i : Instr} {x y : Byte} (h : i.regOperands = [x, y]) (s : State) :
    execFault i s = if x.toNat > 7 then some (.registerOutOfRange, x.toNat)
      else if y.toNat > 7 then some (.registerOutOfRange, y.toNat) else ownFault i s := by
  rw [execFault, Instr.firstBadOperand, h, find?_not_regByteOk_cons, find?_not_regByteOk_cons, List.find?_nil]
  by_cases hx : x.toNat > 7
  · simp only [if_pos hx]
  · by_cases hy : y.toNat > 7
    · simp only [if_neg hx, if_pos hy]
    · simp only [if_neg hx, if_neg hy]

/-- The instruction fetched raises in its meaning what the order of R132 gives after the fetch's own faults. -/
theorem State.cycleFault_of_fetch_ok {s : State} {i : Instr} (h : s.fetch = .ok i) :
    s.cycleFault = execFault i s := by
  obtain ⟨hlen, hread⟩ := State.fetch_eq_ok_iff_read.mp h
  have hop := State.opcodeByte_of_fetch h
  have hcount := (Laws.OpcodeBits.all i).1
  have hpast : ¬ s.pc.toNat > 255 := by omega
  have hend1 : ¬ (operandCount (opcodeByte i) ≥ 1 ∧ s.pc.toNat + 1 > 255) := by omega
  have hend2 : ¬ (operandCount (opcodeByte i) ≥ 2 ∧ s.pc.toNat + 2 > 255) := by omega
  rw [State.cycleFault, hop, if_neg hpast, if_neg (not_not.mpr (opcodeByte_mem_definedOpcodes i)), if_neg hend1,
    if_neg hend2]
  cases i with
  | hlt | ret =>
    rw [execFault_of_regOperands_nil rfl]
    simp [opcodeByte, encode, operandCount, ownFault]
  | ldi x _ | prn x | push x | pop x | jmp x | jeq x | jne x | call x | not x =>
    have hx : s.mem.read (s.pc.toNat + 1) = x := hread 1 (by simp [encode])
    rw [execFault_of_regOperands_one rfl, hx]
    simp [opcodeByte, encode, operandCount, ownFault]
  | div x y | mod x y | add x y | sub x y | mul x y | and x y | or x y | xor x y | shl x y | shr x y | cmp x y =>
    have hx : s.mem.read (s.pc.toNat + 1) = x := hread 1 (by simp [encode])
    have hy : s.mem.read (s.pc.toNat + 2) = y := hread 2 (by simp [encode])
    rw [execFault_of_regOperands_two rfl, hx, hy]
    simp [opcodeByte, encode, operandCount, ownFault]

/-- Everything a cycle can do: raise the first fault of the order of R132, or complete the fetched instruction. -/
theorem cycle_cases {s : State} (hr : s.run = .running) :
    (∃ c n, s.cycleFault = some (c, n) ∧ step s = .next (s.raise c n)) ∨
      (s.cycleFault = none ∧ ∃ i t, s.fetch = .ok i ∧ step s = .next t ∧ Completes s i t) := by
  cases hf : s.fetch with
  | error e => exact .inl ⟨e.1, e.2, State.cycleFault_of_fetch_error hf, step_of_fetch_error hr hf⟩
  | ok i =>
    rw [State.cycleFault_of_fetch_ok hf, step_of_fetch_ok hr hf]
    obtain hraise | ⟨hnone, t, ht, hc⟩ := exec_cases i s
    · exact .inl hraise
    · exact .inr ⟨hnone, i, t, rfl, ht, hc⟩

/-- What the step of a Running core has answered: the fault of the cycle, or the fetched instruction's completion. -/
theorem cycle_next {s t : State} (hr : s.run = .running) (hstep : step s = .next t) :
    (∃ c n, s.cycleFault = some (c, n) ∧ t = s.raise c n) ∨
      (s.cycleFault = none ∧ ∃ i, s.fetch = .ok i ∧ Completes s i t) := by
  obtain ⟨c, n, hc, hs⟩ | ⟨hnone, i, t', hf, hs, hc⟩ := cycle_cases hr
  · exact .inl ⟨c, n, hc, Host.Outcome.next.inj (hstep.symm.trans hs)⟩
  · obtain rfl := Host.Outcome.next.inj (hstep.symm.trans hs)
    exact .inr ⟨hnone, i, hf, hc⟩

/-! #### What completing leaves -/

section
variable {s t : State} {i : Instr}

theorem Completes.fault_eq (h : Completes s i t) : t.fault = s.fault := by
  cases h <;> rfl

theorem Completes.run_eq (h : Completes s i t) : t.run = s.run ∨ i = .hlt ∧ t = s.halt := by
  cases h with
  | hlt => exact .inr ⟨rfl, rfl⟩
  | _ => exact .inl rfl

theorem Completes.run_ne_faulted (h : Completes s i t) (hr : s.run = .running) : t.run ≠ .faulted := by
  obtain hrun | ⟨-, rfl⟩ := h.run_eq
  · rw [hrun, hr]; decide
  · rw [State.halt_run]; decide

theorem Completes.out_eq (h : Completes s i t) : t.out = s.out ∨ ∃ x v, i = .prn x ∧ t.out = s.out ++ [v] := by
  cases h with
  | prn x v => exact .inr ⟨x, v, rfl, rfl⟩
  | _ => exact .inl rfl

theorem Completes.flags_eq (h : Completes s i t) : t.flags = s.flags ∨ ∃ x y, t.flags = cmpFlags x y := by
  cases h with
  | cmp a b x y => exact .inr ⟨x, y, rfl⟩
  | _ => exact .inl rfl

/-- Memory is left alone, or written by one push, of PUSH or CALL. -/
theorem Completes.mem_eq (h : Completes s i t) :
    t.mem = s.mem ∨ (∃ v, t.mem = (s.push v).mem) ∧ ((∃ x, i = .push x) ∨ ∃ x, i = .call x) := by
  cases h with
  | push x v => exact .inr ⟨⟨v, rfl⟩, .inl ⟨x, rfl⟩⟩
  | call x target v => exact .inr ⟨⟨v, rfl⟩, .inr ⟨x, rfl⟩⟩
  | _ => exact .inl rfl

/-- `pc` moves over the instruction's bytes, or HLT stops it, or the instruction sets it to a byte. -/
theorem Completes.pc_eq (h : Completes s i t) :
    t.pc = s.pc + BitVec.ofNat 9 (encode i).length ∨ t = s.halt ∨
      i.setsPc = true ∧ ∃ target : Byte, t.pc = target.setWidth 9 := by
  cases h with
  | hlt => exact .inr (.inl rfl)
  | call x target v => exact .inr (.inr ⟨rfl, target, rfl⟩)
  | ret => exact .inr (.inr ⟨rfl, s.top, rfl⟩)
  | jump target h => exact .inr (.inr ⟨h, target, rfl⟩)
  | _ => exact .inl rfl

end

/-! #### The statements about faults (60_exceptions.md) -/

/-- Settles O11: the two outcomes of `cycle_cases`; completing raises nothing and leaves the record. -/
theorem faultOrder : Obligations.FaultOrder := by
  intro s hr
  obtain ⟨c, n, hc, hs⟩ | ⟨hnone, i, t, -, hs, hc⟩ := cycle_cases hr
  · exact ⟨_, hs, by rw [hc]; exact s.raise_eq_stopped c n⟩
  · refine ⟨t, hs, ?_⟩
    rw [hnone]
    exact ⟨hc.run_ne_faulted hr, hc.fault_eq⟩

/-- Settles O13: a stopped core answers its own state, a Running one as the fault order says. -/
theorem stepAlwaysAnswers : Obligations.StepAlwaysAnswers := by
  intro s
  by_cases hr : s.run = .running
  · obtain ⟨t, hs, -⟩ := faultOrder s hr
    exact ⟨t, hs⟩
  · exact ⟨s, stoppedCoreKeepsItsState s hr⟩

/-- Settles O12: a cycle that ends Faulted has raised its fault, and a Faulted core is stopped. -/
theorem faultsArePreciseAndTerminal : Obligations.FaultsArePreciseAndTerminal := by
  intro s t hr hstep hfaulted
  obtain ⟨c, n, -, rfl⟩ | ⟨-, i, -, hc⟩ := cycle_next hr hstep
  · exact ⟨⟨c, n, s.raise_eq_stopped c n⟩, stoppedCoreKeepsItsState _ (by rw [hfaulted]; decide)⟩
  · exact absurd hfaulted (hc.run_ne_faulted hr)

/-! #### The statements about the program counter and HLT (40_dispatcher.md) -/

theorem State.pc_add_length_of_fetch {s : State} {i : Instr} (h : s.fetch = .ok i) :
    s.pc.toNat + (encode i).length ≤ 256 := (State.fetch_eq_ok_iff_read.mp h).1

/-- Moving `pc` over the fetched instruction's bytes does not wrap (R17). -/
theorem State.advance_pc_toNat_of_fetch {s : State} {i : Instr} (h : s.fetch = .ok i) :
    (s.pc + BitVec.ofNat 9 (encode i).length).toNat = s.pc.toNat + (encode i).length := by
  have hlen := State.pc_add_length_of_fetch h
  rw [BitVec.toNat_add, BitVec.toNat_ofNat, Nat.mod_eq_of_lt (a := (encode i).length) (by omega),
    Nat.mod_eq_of_lt (by omega)]

/-- A cycle that leaves the core Running fetched an instruction that sets `pc` itself, or moved `pc` over its bytes. -/
theorem pc_of_cycle {s t : State} (hr : s.run = .running) (hstep : step s = .next t) (ht : t.run = .running) :
    ∃ i, s.fetch = .ok i ∧ (i.setsPc = true ∨ t.pc.toNat = s.pc.toNat + (encode i).length) := by
  obtain ⟨c, n, -, rfl⟩ | ⟨-, i, hf, hc⟩ := cycle_next hr hstep
  · cases ht
  · refine ⟨i, hf, ?_⟩
    obtain hpc | rfl | ⟨hsets, -⟩ := hc.pc_eq
    · exact .inr (by rw [hpc, State.advance_pc_toNat_of_fetch hf])
    · cases ht
    · exact .inl hsets

/-- Settles O14: bit 4 clear is an instruction that does not set `pc`, whose bytes all lie below 256. -/
theorem autoAdvanceByOperandCount : Obligations.AutoAdvanceByOperandCount := by
  intro s t hr hstep ht hbit
  obtain ⟨i, hf, hpc⟩ := pc_of_cycle hr hstep ht
  obtain ⟨hcount, hsets⟩ := Laws.OpcodeBits.all i
  rw [State.opcodeByte_of_fetch hf] at hbit ⊢
  have hend := State.pc_add_length_of_fetch hf
  obtain hsets' | hpc := hpc
  · rw [hsets, hsets'] at hbit
    cases hbit
  · omega

theorem opcodeByte_mem_of_setsPc {i : Instr} (h : i.setsPc = true) :
    opcodeByte i ∈ [0x11#8, 0x50#8, 0x54#8, 0x55#8, 0x56#8] := by
  cases i with
  | ret | call r | jmp r | jeq r | jne r => simp [opcodeByte, encode]
  | _ => cases h

/-- Settles O15: an instruction has at least one byte for `pc` to move over. -/
theorem pcStandsOnlyByJumpOrStop : Obligations.PcStandsOnlyByJumpOrStop := by
  intro s t hr hstep ht hpc
  obtain ⟨i, hf, hsets | hmoved⟩ := pc_of_cycle hr hstep ht
  · rw [State.opcodeByte_of_fetch hf]
    exact opcodeByte_mem_of_setsPc hsets
  · have hpos := encode_length_pos i
    rw [hpc] at hmoved
    omega

/-- Settles O17: a fault leaves the core Faulted, and no other completion than HLT's changes `run`. -/
theorem haltedOnlyByHlt : Obligations.HaltedOnlyByHlt := by
  intro s t hr hstep hhalted
  obtain ⟨c, n, -, rfl⟩ | ⟨-, i, hf, hc⟩ := cycle_next hr hstep
  · cases hhalted
  · obtain hrun | ⟨rfl, rfl⟩ := hc.run_eq
    · rw [hrun, hr] at hhalted
      cases hhalted
    · exact ⟨State.opcodeByte_of_fetch hf, rfl⟩

/-! #### Who changes the output stream and memory -/

/-- Settles O18: a stopped core, a fault and every completion but PRN's leave the stream. -/
theorem outputGrowsOnlyByPrn : Obligations.OutputGrowsOnlyByPrn := by
  intro s t hstep
  by_cases hr : s.run = .running
  · obtain ⟨c, n, -, rfl⟩ | ⟨-, i, hf, hc⟩ := cycle_next hr hstep
    · exact .inl rfl
    · obtain hout | ⟨x, v, rfl, hout⟩ := hc.out_eq
      · exact .inl hout
      · exact .inr ⟨State.opcodeByte_of_fetch hf, v, hout⟩
  · obtain rfl := Host.Outcome.next.inj ((stoppedCoreKeepsItsState s hr).symm.trans hstep)
    exact .inl rfl

theorem pushedSp_toNat (s : State) : (pushedSp s).toNat = ((s.reg 7).toNat + 255) % 256 := by
  rw [pushedSp, State.sp_eq_reg]
  bv_omega

/-- Settles O19: only the one push of PUSH or CALL writes memory, and it writes at the decremented SP. -/
theorem memoryChangesOnlyAtStackTop : Obligations.MemoryChangesOnlyAtStackTop := by
  intro s t hinv hstep a hne
  by_cases hr : s.run = .running
  · obtain ⟨c, n, -, rfl⟩ | ⟨-, i, hf, hc⟩ := cycle_next hr hstep
    · exact absurd rfl hne
    · obtain hmem | ⟨⟨v, hmem⟩, hi⟩ := hc.mem_eq
      · exact absurd (congrArg (Memory.read · a) hmem) hne
      · rw [hmem, State.push_read hinv.mem_wf] at hne
        refine ⟨?_, ?_⟩
        · by_contra ha
          exact hne (if_neg fun h => ha (h.trans (pushedSp_toNat s)))
        · rw [State.opcodeByte_of_fetch hf]
          obtain ⟨x, rfl⟩ | ⟨x, rfl⟩ := hi
          · exact .inl rfl
          · exact .inr rfl
  · obtain rfl := Host.Outcome.next.inj ((stoppedCoreKeepsItsState s hr).symm.trans hstep)
    exact absurd rfl hne

/-! #### The invariant (10_state.md) -/

/-- The record a cycle's fault leaves fits the state: by the order of R132. -/
theorem State.recordFits_of_cycleFault {s : State} {c : Fault} {n : Nat} (hpc : s.pc.toNat ≤ 256)
    (h : s.cycleFault = some (c, n)) : (s.raise c n).recordFits ⟨c, s.pc, n⟩ := by
  refine ⟨rfl, ?_⟩
  simp only [State.raise_pc, State.raise_mem, lookupOpcode_eq_none_iff_notMem]
  simp only [State.cycleFault] at h
  split_ifs at h with hpast hop hend1 hend2 hreg1 hreg2 hzero hcall <;> cases h <;> dsimp only
  · omega
  · omega
  · omega
  · exact ⟨hreg1.2, Nat.le_of_lt_succ (BitVec.isLt _)⟩
  · exact ⟨hreg2.2.2, Nat.le_of_lt_succ (BitVec.isLt _)⟩
  · refine ⟨rfl, ?_⟩
    obtain ⟨hdiv | hmod, -⟩ := hzero
    · exact .inl (congrArg BitVec.toNat hdiv)
    · exact .inr (congrArg BitVec.toNat hmod)
  · have hcount : operandCount (s.mem.read s.pc.toNat) = 1 := by rw [hcall.1]; rfl
    omega
  · exact ⟨Nat.not_lt.mp hpast, rfl, hop⟩

theorem cmpFlags_atMostOne (x y : Byte) : (cmpFlags x y).atMostOne := by
  simp only [Flags.atMostOne, cmpFlags, decide_eq_true_eq]
  omega

/-- A fault of the cycle keeps the invariant. -/
theorem State.Inv.raise {s : State} {c : Fault} {n : Nat} (h : s.Inv) (hc : s.cycleFault = some (c, n)) :
    (s.raise c n).Inv where
  mem_wf := h.mem_wf
  pc_range := h.pc_range
  flags_ok := h.flags_ok
  record := ⟨fun _ => rfl, fun _ => rfl⟩
  fits r hrec := by
    obtain rfl := Option.some.inj hrec
    exact State.recordFits_of_cycleFault h.pc_range hc

/-- Completing the fetched instruction keeps the invariant. -/
theorem State.Inv.completes {s t : State} {i : Instr} (h : s.Inv) (hr : s.run = .running) (hf : s.fetch = .ok i)
    (hc : Completes s i t) : t.Inv := by
  have hnone : t.fault = none := by
    rw [hc.fault_eq, ← Option.not_isSome_iff_eq_none, h.record, hr]
    decide
  have hend := State.pc_add_length_of_fetch hf
  refine ⟨?_, ?_, ?_, ?_, ?_⟩
  · obtain hmem | ⟨⟨v, hmem⟩, -⟩ := hc.mem_eq
    · rw [hmem]; exact h.mem_wf
    · rw [hmem]; exact State.push_wf h.mem_wf v
  · obtain hpc | rfl | ⟨-, target, hpc⟩ := hc.pc_eq
    · rw [hpc, State.advance_pc_toNat_of_fetch hf]; exact hend
    · exact h.pc_range
    · rw [hpc, BitVec.toNat_setWidth_of_le (by decide)]
      exact target.isLt.le
  · obtain hflags | ⟨x, y, hflags⟩ := hc.flags_eq
    · rw [hflags]; exact h.flags_ok
    · rw [hflags]; exact cmpFlags_atMostOne x y
  · rw [hnone]
    exact ⟨nofun, fun hfaulted => absurd hfaulted (hc.run_ne_faulted hr)⟩
  · intro r hrec
    rw [hnone] at hrec
    cases hrec

/-- Settles O24: a stopped core keeps its state; a cycle's fault and completion keep the invariant each. -/
theorem stepKeepsInvariant : Obligations.StepKeepsInvariant := by
  intro s t hinv hstep
  by_cases hr : s.run = .running
  · obtain ⟨c, n, hc, rfl⟩ | ⟨-, i, hf, hc⟩ := cycle_next hr hstep
    · exact hinv.raise hc
    · exact hinv.completes hr hf hc
  · obtain rfl := Host.Outcome.next.inj ((stoppedCoreKeepsItsState s hr).symm.trans hstep)
    exact hinv

end Sys2Proof.Machine

/-! ### Proofs for what the core never reads (10_state.md): the output stream, and the flags G and L. -/

namespace Sys2Proof.Machine

open Sys2Proof

/-- A relation of states that the core cannot tell apart: related states agree in all that a step reads, and every
operation of the machine keeps them related. -/
structure Unseen (R : State → State → Prop) : Prop where
  regs {s t} : R s t → t.regs = s.regs
  pc {s t} : R s t → t.pc = s.pc
  mem {s t} : R s t → t.mem = s.mem
  run {s t} : R s t → t.run = s.run
  equal {s t} : R s t → t.flags.e = s.flags.e
  setReg {s t} (r : RegIdx) (v : Byte) : R s t → R (s.setReg r v) (t.setReg r v)
  advance {s t} (n : Nat) : R s t → R (s.advance n) (t.advance n)
  jumpTo {s t} (v : Byte) : R s t → R (s.jumpTo v) (t.jumpTo v)
  emit {s t} (v : Byte) : R s t → R (s.emit v) (t.emit v)
  halt {s t} : R s t → R s.halt t.halt
  setFlags {s t} (f : Flags) : R s t → R (s.setFlags f) (t.setFlags f)
  setMem {s t} (m : Memory) : R s t → R { s with mem := m } { t with mem := m }
  raise {s t} (c : Fault) (n : Nat) : R s t → R (s.raise c n) (t.raise c n)

namespace Unseen

variable {R : State → State → Prop} (hR : Unseen R) {s t : State}
include hR

theorem reg (h : R s t) (r : RegIdx) : t.reg r = s.reg r := by
  rw [State.reg, State.reg, hR.regs h]

theorem sp (h : R s t) : t.sp = s.sp := hR.reg h 7

theorem top (h : R s t) : t.top = s.top := by
  rw [State.top, State.top, hR.sp h, hR.mem h]

theorem dropTop (h : R s t) : R s.dropTop t.dropTop := by
  rw [State.dropTop, State.dropTop, hR.sp h]
  exact hR.setReg _ _ h

theorem push {v w : State → Byte} (h : R s t) (hv : ∀ {s t}, R s t → w t = v s) : R (s.push v) (t.push w) := by
  have hsp : R (s.setSp (s.sp - 1#8)) (t.setSp (t.sp - 1#8)) := by
    rw [hR.sp h]
    exact hR.setReg _ _ h
  have hmem : (t.push w).mem = (s.push v).mem := by
    rw [State.push_mem, State.push_mem, hv hsp, hR.mem h, hR.sp hsp]
  change R { s.setSp (s.sp - 1#8) with mem := (s.push v).mem } { t.setSp (t.sp - 1#8) with mem := (t.push w).mem }
  rw [hmem]
  exact hR.setMem _ hsp

theorem withReg {j k : RegIdx → State} (op : Byte) (h : R s t) (hk : ∀ r, R (j r) (k r)) :
    R (s.withReg op j) (t.withReg op k) := by
  unfold State.withReg
  cases regIndex op with
  | some r => exact hk r
  | none => exact hR.raise _ _ h

theorem withRegs {j k : RegIdx → RegIdx → State} (op1 op2 : Byte) (h : R s t) (hk : ∀ a b, R (j a b) (k a b)) :
    R (s.withRegs op1 op2 j) (t.withRegs op1 op2 k) :=
  hR.withReg op1 h fun a => hR.withReg op2 h (hk a)

/-- Related states execute to related states. -/
theorem exec (i : Instr) (h : R s t) :
    ∃ s' t', exec i s = .next s' ∧ exec i t = .next t' ∧ R s' t' := by
  cases i with
  | hlt => exact ⟨_, _, rfl, rfl, hR.halt h⟩
  | ret => exact ⟨_, _, rfl, rfl, by rw [hR.top h]; exact hR.dropTop (hR.jumpTo _ h)⟩
  | ldi x imm => exact ⟨_, _, rfl, rfl, hR.withReg x h fun r => hR.advance 3 (hR.setReg r imm h)⟩
  | prn x => exact ⟨_, _, rfl, rfl, hR.withReg x h fun r => by rw [hR.reg h]; exact hR.advance 2 (hR.emit _ h)⟩
  | push x => exact ⟨_, _, rfl, rfl, hR.withReg x h fun r => hR.advance 2 (hR.push h fun h => hR.reg h r)⟩
  | pop x =>
    refine ⟨_, _, rfl, rfl, hR.withReg x h fun r => ?_⟩
    rw [hR.top h]
    exact hR.advance 2 (hR.dropTop (hR.setReg r _ h))
  | jmp x => exact ⟨_, _, rfl, rfl, hR.withReg x h fun r => by rw [hR.reg h]; exact hR.jumpTo _ h⟩
  | jeq x | jne x =>
    refine ⟨_, _, rfl, rfl, hR.withReg x h fun r => ?_⟩
    rw [hR.reg h, hR.equal h]
    have hjump := hR.jumpTo (s.reg r) h
    have hskip := hR.advance 2 h
    split <;> assumption
  | call x =>
    refine ⟨_, _, rfl, rfl, hR.withReg x h fun r => ?_⟩
    have hpush (v : Byte) : R (s.push fun _ => v) (t.push fun _ => v) := hR.push h fun _ => rfl
    dsimp only
    rw [hR.pc h]
    split
    · exact hR.raise _ _ h
    · rw [hR.reg (hpush _)]
      exact hR.jumpTo _ (hpush _)
  | not x => exact ⟨_, _, rfl, rfl, hR.withReg x h fun r => by rw [hR.reg h]; exact hR.advance 2 (hR.setReg r _ h)⟩
  | cmp x y =>
    refine ⟨_, _, rfl, rfl, hR.withRegs x y h fun a b => ?_⟩
    rw [hR.reg h, hR.reg h]
    exact hR.advance 3 (hR.setFlags _ h)
  | div x y | mod x y =>
    refine ⟨_, _, rfl, rfl, hR.withRegs x y h fun a b => ?_⟩
    rw [hR.reg h, hR.reg h]
    split
    · exact hR.raise _ _ h
    · exact hR.advance 3 (hR.setReg a _ h)
  | add x y | sub x y | mul x y | and x y | or x y | xor x y | shl x y | shr x y =>
    refine ⟨_, _, rfl, rfl, hR.withRegs x y h fun a b => ?_⟩
    rw [hR.reg h, hR.reg h]
    exact hR.advance 3 (hR.setReg a _ h)

theorem fetch (h : R s t) : t.fetch = s.fetch := by
  rw [State.fetch, State.fetch, hR.mem h, hR.pc h]

/-- Related states step to related states. -/
theorem step (h : R s t) {s' : State} (hs : step s = .next s') : ∃ t', step t = .next t' ∧ R s' t' := by
  obtain ⟨hr, he⟩ | ⟨hr, i, hf, he⟩ | ⟨hr, c, n, hf, he⟩ := step_cases s
  · obtain rfl := Host.Outcome.next.inj (he.symm.trans hs)
    exact ⟨t, stoppedCoreKeepsItsState t (by rwa [hR.run h]), h⟩
  · obtain ⟨s'', t', hs', ht', hrel⟩ := hR.exec i h
    obtain rfl := Host.Outcome.next.inj (hs'.symm.trans (he.symm.trans hs))
    exact ⟨t', (step_of_fetch_ok (by rw [hR.run h, hr]) (by rw [hR.fetch h, hf])).trans ht', hrel⟩
  · obtain rfl := Host.Outcome.next.inj (he.symm.trans hs)
    exact ⟨_, step_of_fetch_error (by rw [hR.run h, hr]) (by rw [hR.fetch h, hf]), hR.raise c n h⟩

end Unseen

/-- The second state is the first with earlier output before its own. -/
def OutputBefore (o : List Byte) (s t : State) : Prop := t = { s with out := o ++ s.out }

theorem unseen_outputBefore (o : List Byte) : Unseen (OutputBefore o) where
  regs := by rintro s _ rfl; rfl
  pc := by rintro s _ rfl; rfl
  mem := by rintro s _ rfl; rfl
  run := by rintro s _ rfl; rfl
  equal := by rintro s _ rfl; rfl
  setReg r v := by rintro rfl; rfl
  advance n := by rintro rfl; rfl
  jumpTo v := by rintro rfl; rfl
  emit v := by rintro rfl; simp [OutputBefore, State.emit]
  halt := by rintro s _ rfl; rfl
  setFlags f := by rintro rfl; rfl
  setMem m := by rintro rfl; rfl
  raise c n := by rintro rfl; rfl

/-- Settles O20: output that stands before is never seen, and stays before. -/
theorem outputIsNeverRead : Obligations.OutputIsNeverRead := by
  intro s t o hstep
  have h : OutputBefore o { s with out := [] } { s with out := o } := by simp [OutputBefore]
  obtain ⟨t', hs, rfl⟩ := (unseen_outputBefore o).step h hstep
  exact hs

/-- The second state is the first with some values of G and L. -/
def SameButGreaterLess (s t : State) : Prop := ∃ g l, t = { s with flags := { s.flags with g := g, l := l } }

theorem unseen_sameButGreaterLess : Unseen SameButGreaterLess where
  regs := by rintro s _ ⟨g, l, rfl⟩; rfl
  pc := by rintro s _ ⟨g, l, rfl⟩; rfl
  mem := by rintro s _ ⟨g, l, rfl⟩; rfl
  run := by rintro s _ ⟨g, l, rfl⟩; rfl
  equal := by rintro s _ ⟨g, l, rfl⟩; rfl
  setReg r v := by rintro ⟨g, l, rfl⟩; exact ⟨g, l, rfl⟩
  advance n := by rintro ⟨g, l, rfl⟩; exact ⟨g, l, rfl⟩
  jumpTo v := by rintro ⟨g, l, rfl⟩; exact ⟨g, l, rfl⟩
  emit v := by rintro ⟨g, l, rfl⟩; exact ⟨g, l, rfl⟩
  halt := by rintro s _ ⟨g, l, rfl⟩; exact ⟨g, l, rfl⟩
  setFlags f := by rintro ⟨g, l, rfl⟩; exact ⟨f.g, f.l, rfl⟩
  setMem m := by rintro ⟨g, l, rfl⟩; exact ⟨g, l, rfl⟩
  raise c n := by rintro ⟨g, l, rfl⟩; exact ⟨g, l, rfl⟩

/-- Settles O21: G and L are never seen, and a step leaves states that differ in them at most. -/
theorem greaterAndLessAreNeverRead : Obligations.GreaterAndLessAreNeverRead := by
  intro s t g l hstep
  obtain ⟨t', hs, g', l', rfl⟩ := unseen_sameButGreaterLess.step ⟨g, l, rfl⟩ hstep
  exact ⟨g', l', hs⟩

end Sys2Proof.Machine

/-! ### Proofs for reset (70_reset_and_hazards.md). -/

namespace Sys2Proof.Machine

open Sys2Proof

/-- Above the last address of the canonical form every cell reads as 0. -/
theorem Memory.read_above {lo a : Nat} {m : Memory} (h : Memory.wfFrom lo m = true) (ha : 256 ≤ a) :
    m.read a = 0#8 := by
  induction m generalizing lo with
  | nil => rfl
  | cons c m ih =>
    obtain ⟨k, v⟩ := c
    obtain ⟨-, hk, -, hm⟩ := Memory.wfFrom_cons.mp h
    rw [Memory.read, if_neg (by omega)]
    exact ih hm

/-- Settles O22: the values `State.reset` writes out (R28). -/
theorem resetValues : Obligations.ResetValues :=
  ⟨by decide, rfl, rfl, rfl, rfl, fun _ => rfl, rfl⟩

/-- The reset state with any memory in canonical form meets the invariant. -/
theorem reset_with_mem_inv {m : Memory} (h : m.wf = true) : ({ State.reset with mem := m } : State).Inv where
  mem_wf := h
  pc_range := Nat.zero_le _
  flags_ok := by simp [State.reset, Flags.atMostOne]
  record := ⟨nofun, nofun⟩
  fits := nofun

/-- Settles O23: the empty memory is in canonical form. -/
theorem resetMeetsInvariant : Obligations.ResetMeetsInvariant := reset_with_mem_inv (m := []) rfl

theorem imageValueOk_eq_true {v : Int} : imageValueOk v = true ↔ 0 ≤ v ∧ v ≤ 255 := by
  simp [imageValueOk]

/-- What a legal image loads: its values as bytes, from address 0. -/
theorem resetWith_of_legal {image : List Int} (hlen : image.length ≤ 256) (hok : ∀ v ∈ image, 0 ≤ v ∧ v ≤ 255) :
    State.resetWith image = .next { State.reset with mem := Memory.place [] 0 (image.map (BitVec.ofInt 8)) } := by
  have hnone : image.find? (fun v => !imageValueOk v) = none :=
    List.find?_eq_none.mpr fun v hv => by simpa [imageValueOk_eq_true] using hok v hv
  have hshort : ¬ image.length > Config.memSize := Nat.not_lt.mpr hlen
  rw [State.resetWith, if_neg hshort, hnone]

/-- A memory that held nothing reads as the placed bytes where they reach, and as 0 beyond them. -/
theorem Memory.read_place_nil (bs : List Byte) (hlen : bs.length ≤ 256) (a : Nat) :
    (Memory.place [] 0 bs).read a = bs[a]?.getD 0#8 := by
  by_cases ha : a < 256
  · rw [Memory.read_place rfl 0 bs a ha, if_pos a.zero_le]
    rfl
  · rw [List.getElem?_eq_none (by omega), Memory.read_above (Memory.wf_place rfl 0 bs) (by omega)]
    rfl

/-- Settles O25: the reset state but for memory, which the placed image leaves in canonical form. -/
theorem resetLoadsImage : Obligations.ResetLoadsImage := by
  intro image hlen hok
  refine ⟨_, resetWith_of_legal hlen hok, reset_with_mem_inv (Memory.wf_place rfl 0 _), fun a ha => ?_, fun a ha => ?_,
    rfl, rfl, rfl, rfl, rfl, rfl⟩
  · have hv := hok image[a] (List.getElem_mem ha)
    rw [Memory.read_place_nil _ (by rwa [List.length_map]), List.getElem?_eq_getElem (by rwa [List.length_map]),
      List.getElem_map, Option.getD_some, BitVec.toNat_ofInt]
    omega
  · rw [Memory.read_place_nil _ (by rwa [List.length_map]), List.getElem?_eq_none (by rwa [List.length_map])]
    rfl

/-- Settles O26: the length is checked first; then the first value that is no byte is the one refused. -/
theorem illegalImageRefused : Obligations.IllegalImageRefused := by
  refine fun image => ⟨fun hlen => if_pos hlen, fun hlen v hv hbad => ?_⟩
  have hsome : (image.find? (fun v => !imageValueOk v)).isSome := by
    rw [List.find?_isSome]
    exact ⟨v, hv, by rw [Bool.not_eq_true', ← Bool.not_eq_true, imageValueOk_eq_true]; omega⟩
  obtain ⟨w, hw⟩ := Option.isSome_iff_exists.mp hsome
  have hbad : ¬ (0 ≤ w ∧ w ≤ 255) := by
    simpa only [Bool.not_eq_true', ← Bool.not_eq_true, imageValueOk_eq_true] using List.find?_some hw
  have hshort : ¬ image.length > Config.memSize := Nat.not_lt.mpr hlen
  refine ⟨w, List.mem_of_find?_eq_some hw, by omega, ?_⟩
  rw [State.resetWith, if_neg hshort, hw]

end Sys2Proof.Machine

/-! ### Proofs for PRN and HLT (42_data_movement.md). -/

namespace Sys2Proof.Machine

open Sys2Proof

/-- Settles O28: PRN is one element more in the output stream, which the host renders after the others, and the
auto-advance. -/
theorem prnAppendsRegister : Obligations.PrnAppendsRegister := by
  refine ⟨fun r => ⟨rfl, commonFaults _⟩, fun r s => ⟨_, exec_prn_regByte r s, rfl, ?_, rfl, ?_⟩⟩
  · simp [State.hostText]
  · exact ⟨fun _ _ => rfl, fun _ _ => rfl, rfl, rfl, rfl⟩

/-- A digit's character is the library's. -/
theorem digitChar_eq (n : Nat) : digitChar n = Nat.digitChar (n % 10) := by
  have hdigit : ∀ d : Fin 10, Char.ofNat (48 + d) = Nat.digitChar d := by decide
  exact hdigit ⟨n % 10, Nat.mod_lt n (by decide)⟩

/-- Settles O29: by the number of digits, at most three. -/
theorem decimalNumeralOfByte : Obligations.DecimalNumeralOfByte := by
  intro v
  have hlt := v.isLt
  simp only [decimal, digitChar_eq]
  split_ifs with hone htwo
  · rw [Nat.toDigits_of_lt_base hone, Nat.mod_eq_of_lt hone]
  · rw [Nat.toDigits_of_base_le (by decide) (by omega), Nat.toDigits_of_lt_base (by omega),
      Nat.mod_eq_of_lt (a := v.toNat / 10) (by omega)]
    rfl
  · rw [Nat.toDigits_of_base_le (by decide) (by omega), Nat.toDigits_of_base_le (by decide) (by omega),
      Nat.toDigits_of_lt_base (by omega), Nat.div_div_eq_div_mul, Nat.mod_eq_of_lt (a := v.toNat / 100) (by omega)]
    rfl

/-- Settles O30: HLT's meaning writes `run` only. -/
theorem hltHalts : Obligations.HltHalts := ⟨rfl, fun _ => rfl⟩

end Sys2Proof.Machine

/-! ### Proofs for the ALU's arithmetic, shifts and comparison (41_alu.md). -/

namespace Sys2Proof.Machine

open Sys2Proof

/-- Settles O31: the three meanings are `aluWrite` of the exact result modulo 256 (R81 to R83). -/
theorem addSubMulWrapModulo256 : Obligations.AddSubMulWrapModulo256 :=
  ⟨aluWrites_of_exec (fun _ _ => rfl) (fun _ _ _ => rfl) aluAdd_toNat,
   aluWrites_of_exec (fun _ _ => rfl) (fun _ _ _ => rfl) aluSub_toNat,
   aluWrites_of_exec (fun _ _ => rfl) (fun _ _ _ => rfl) aluMul_toNat⟩

theorem aluShl_of_ge {x y : Byte} (h : y.toNat ≥ 8) : aluShl x y = 0#8 := if_pos h

theorem aluShl_toNat_of_lt {x y : Byte} (h : y.toNat < 8) : (aluShl x y).toNat = (x.toNat * 2 ^ y.toNat) % 256 := by
  rw [aluShl, if_neg (Nat.not_le.mpr h), BitVec.toNat_ofNat]

theorem aluShr_of_ge {x y : Byte} (h : y.toNat ≥ 8) : aluShr x y = 0#8 := if_pos h

theorem aluShr_toNat_of_lt {x y : Byte} (h : y.toNat < 8) : (aluShr x y).toNat = x.toNat / 2 ^ y.toNat := by
  rw [aluShr, if_neg (Nat.not_le.mpr h), BitVec.toNat_ofNat]
  exact Nat.mod_eq_of_lt (Nat.lt_of_le_of_lt (Nat.div_le_self _ _) x.isLt)

/-- Settles O36: the two meanings are `aluWrite` of the shifts, whose amount is the whole byte (R90, R91). -/
theorem shiftsAreLogical : Obligations.ShiftsAreLogical :=
  ⟨aluWrites_of_exec (fun _ _ => rfl) (fun _ _ _ => rfl) fun _ _ => ⟨aluShl_of_ge, aluShl_toNat_of_lt⟩,
   aluWrites_of_exec (fun _ _ => rfl) (fun _ _ _ => rfl) fun _ _ => ⟨aluShr_of_ge, aluShr_toNat_of_lt⟩⟩

theorem aluNot_eq (x : Byte) : aluNot x = ~~~x :=
  BitVec.eq_of_toNat_eq (by rw [aluNot_toNat, BitVec.toNat_not])

/-- Settles O35: 255 minus a byte is its complement (R89), one register write and the auto-advance. -/
theorem notInvertsEveryBit : Obligations.NotInvertsEveryBit := by
  refine ⟨fun a => ⟨rfl, commonFaults _⟩, fun a s => ?_⟩
  refine ⟨_, exec_not_regByte a s, ?_, fun k hk => ?_, rfl, s.onlyWrites_setReg_advance a _ 2⟩
  · rw [State.advance_reg, State.setReg_reg_same, aluNot_toNat]
  · rw [State.advance_reg, State.setReg_reg_same, aluNot_eq, BitVec.getLsbD_not, decide_eq_true hk, Bool.true_and]

/-- Settles O32: quotient and remainder of the library's division (R84, R85), each one register write. -/
theorem divModUnsigned : Obligations.DivModUnsigned := by
  refine ⟨fun a b => ⟨rfl, commonFaults _⟩, fun a b => ⟨rfl, commonFaults _⟩, fun a b s hz => ?_⟩
  have hpos : 0 < (s.reg b).toNat := Nat.pos_of_ne_zero fun h => hz (BitVec.eq_of_toNat_eq h)
  rw [exec_div_regByte, exec_mod_regByte, if_neg hz, if_neg hz]
  refine ⟨_, _, rfl, rfl, ?_, ?_, rfl, s.onlyWrites_setReg_advance a _ 3, rfl, s.onlyWrites_setReg_advance a _ 3⟩
  · simp only [State.advance_reg, State.setReg_reg_same, aluDiv_toNat, aluMod_toNat]
    exact (Nat.div_add_mod' _ _).symm
  · rw [State.advance_reg, State.setReg_reg_same, aluMod_toNat]
    exact Nat.mod_lt _ hpos

/-- Settles O33: the divisor is checked before the write (R127). -/
theorem divisionByZeroFaults : Obligations.DivisionByZeroFaults := by
  intro a b s hz
  rw [exec_div_regByte, exec_mod_regByte, if_pos hz, if_pos hz]
  exact ⟨rfl, rfl⟩

/-- Exactly one of the three comparisons of two bytes holds. -/
theorem cmpFlags_count (x y : Byte) :
    [(cmpFlags x y).e, (cmpFlags x y).g, (cmpFlags x y).l].count true = 1 := by
  simp only [cmpFlags]
  rcases Nat.lt_trichotomy x.toNat y.toNat with h | h | h
  · simp [h, h.ne, h.le]
  · simp [h]
  · simp [h, h.ne', h.le]

/-- Settles O37: CMP writes the flags, each its comparison (R92), and advances. -/
theorem cmpSetsExactlyOneFlag : Obligations.CmpSetsExactlyOneFlag := by
  refine ⟨fun a b => ⟨rfl, commonFaults _⟩, fun a b s => ⟨_, exec_cmp_regByte a b s, ?_⟩⟩
  exact ⟨decide_eq_true_iff, decide_eq_true_iff, decide_eq_true_iff, cmpFlags_count _ _, rfl,
    fun _ _ => rfl, fun _ _ => rfl, rfl, rfl, rfl⟩

theorem exec_add_regByte (a b : RegIdx) (s : State) :
    exec (.add (regByte a) (regByte b)) s = .next ((s.setReg a (aluAdd (s.reg a) (s.reg b))).advance 3) :=
  congrArg Host.Outcome.next (s.aluWrite_regByte a b aluAdd)

theorem exec_sub_regByte (a b : RegIdx) (s : State) :
    exec (.sub (regByte a) (regByte b)) s = .next ((s.setReg a (aluSub (s.reg a) (s.reg b))).advance 3) :=
  congrArg Host.Outcome.next (s.aluWrite_regByte a b aluSub)

theorem aluSub_aluAdd (x y : Byte) : aluSub (aluAdd x y) y = x := by
  have hsub := aluSub_toNat (aluAdd x y) y
  rw [aluAdd_toNat] at hsub
  exact BitVec.eq_of_toNat_eq (by omega)

/-- Settles O45: the second register keeps its value, and subtracting undoes adding modulo 256. -/
theorem subUndoesAdd : Obligations.SubUndoesAdd := by
  intro a b s t u hab ht hu
  obtain rfl := Host.Outcome.next.inj ((exec_add_regByte a b s).symm.trans ht)
  obtain rfl := Host.Outcome.next.inj ((exec_sub_regByte a b _).symm.trans hu)
  refine State.regs_eq_of_reg fun q => ?_
  simp only [State.advance_reg, State.setReg_reg, if_true, if_neg hab.symm, aluSub_aluAdd]
  split_ifs with hq
  · rw [hq]
  · rfl

end Sys2Proof.Machine

/-! ### Proofs for the stack and subroutines (43_stack_subroutine.md): PUSH, POP, CALL, and the laws of two
instructions. -/

namespace Sys2Proof.Machine

open Sys2Proof

/-! #### What a push and a pop leave (R105) -/

theorem State.sp_add_one_toNat (s : State) : (s.sp + 1#8).toNat = ((s.reg 7).toNat + 1) % 256 :=
  BitVec.toNat_add (s.reg 7) 1#8

/-- What a push stores when it stores register `r`: for R7 the decremented SP (D12). -/
theorem State.setSp_pushedSp_reg (s : State) (r : RegIdx) :
    (s.setSp (pushedSp s)).reg r = if r = 7 then pushedSp s else s.reg r := s.setSp_reg _ r

theorem State.push_read_top {s : State} (h : s.mem.wf = true) (v : State → Byte) :
    (s.push v).mem.read (pushedSp s).toNat = v (s.setSp (pushedSp s)) :=
  (State.push_read h v _).trans (if_pos rfl)

theorem State.onlyWrites_push {s : State} (h : s.mem.wf = true) (v : State → Byte) :
    OnlyWrites [7] [(pushedSp s).toNat] s (s.push v) := by
  refine ⟨fun q hq => ?_, fun a ha => ?_, rfl, rfl, rfl, rfl⟩
  · rw [State.push_reg, if_neg (List.ne_of_not_mem_cons hq)]
  · exact (State.push_read h v a).trans (if_neg (List.ne_of_not_mem_cons ha))

/-- After a push R7 is the decremented SP, every other register as before. -/
theorem State.push_reg_eq (s : State) (v : State → Byte) (r : RegIdx) :
    (s.push v).reg r = if r = 7 then pushedSp s else s.reg r := s.push_reg v r

/-- Moving `pc` afterwards changes no frame, which says nothing of `pc`. -/
theorem OnlyWrites.advance {regs : List RegIdx} {addrs : List Nat} {s t : State} (h : OnlyWrites regs addrs s t)
    (n : Nat) : OnlyWrites regs addrs s (t.advance n) := h

theorem OnlyWrites.jumpTo {regs : List RegIdx} {addrs : List Nat} {s t : State} (h : OnlyWrites regs addrs s t)
    (target : Byte) : OnlyWrites regs addrs s (t.jumpTo target) := h

/-! #### PUSH, POP, CALL -/

/-- Settles O38: PUSH is a push of the register and the auto-advance (R106). -/
theorem pushStoresBelowSp : Obligations.PushStoresBelowSp := by
  refine ⟨fun r => ⟨rfl, commonFaults _⟩, fun r s hwf => ⟨_, exec_push_regByte r s, ?_, pushedSp_toNat s, ?_, rfl,
    (State.onlyWrites_push hwf _).advance 2⟩⟩
  · exact s.push_reg_eq (fun s' => s'.reg r) 7
  · exact (State.push_read_top hwf fun s' => s'.reg r).trans (s.setSp_pushedSp_reg r)

/-- Settles O39: POP is a register write of the byte at SP, then SP plus 1, which sees that write (R107, D12). -/
theorem popLoadsFromSp : Obligations.PopLoadsFromSp := by
  refine ⟨fun r => ⟨rfl, commonFaults _⟩, fun r s => ⟨_, exec_pop_regByte r s, fun hr => ⟨?_, ?_⟩, ?_, rfl, ?_⟩⟩
  · rw [State.advance_reg, State.dropTop_reg, if_neg hr, State.setReg_reg_same]
    rfl
  · rw [State.advance_reg, State.dropTop_reg, if_pos rfl, State.sp_add_one_toNat,
      State.setReg_reg_other _ _ (Ne.symm hr)]
  · rintro rfl
    rw [State.advance_reg, State.dropTop_reg, if_pos rfl, State.sp_add_one_toNat, State.setReg_reg_same]
    rfl
  · refine ⟨fun q hq => ?_, fun _ _ => rfl, rfl, rfl, rfl, rfl⟩
    obtain ⟨hqr, hq7⟩ : q ≠ r ∧ q ≠ 7 := by simpa using hq
    rw [State.advance_reg, State.dropTop_reg, if_neg hq7, State.setReg_reg_other _ _ hqr]

/-- CALL where the return address fits a byte: a push of it, then a jump to the register, read after the push (R108). -/
theorem exec_call_of_fits (r : RegIdx) {s : State} (h : s.pc.toNat + 2 ≤ 255) :
    exec (.call (regByte r)) s =
      .next ((s.push fun _ => s.returnByte).jumpTo ((s.push fun _ => s.returnByte).reg r)) := by
  rw [exec_call_regByte, if_neg (Nat.not_lt.mpr h)]

theorem State.returnByte_toNat {s : State} (h : s.pc.toNat + 2 ≤ 255) : s.returnByte.toNat = s.pc.toNat + 2 :=
  Nat.mod_eq_of_lt (Nat.lt_succ_of_le h)

/-- Settles O40: the pushed byte is `pc + 2`, which fits. -/
theorem callPushesReturnAddress : Obligations.CallPushesReturnAddress := by
  refine ⟨fun r => ⟨rfl, commonFaults _⟩, fun r s hwf hret => ?_⟩
  refine ⟨_, exec_call_of_fits r hret, ?_, pushedSp_toNat s, ?_, ?_, (State.onlyWrites_push hwf _).jumpTo _⟩
  · exact s.push_reg_eq (fun _ => s.returnByte) 7
  · rw [State.jumpTo_mem, State.push_read_top hwf, State.returnByte_toNat hret]
  · rw [State.jumpTo_pc_toNat, State.push_reg_eq]

/-- Settles O41: the return address is checked before the push (D9). -/
theorem callReturnAddressFaults : Obligations.CallReturnAddressFaults := by
  intro r s hret
  rw [exec_call_regByte, if_pos hret]
  rfl

/-! #### A pop after a push -/

/-- In a state with the registers a push left, dropping the top gives back the registers before it. -/
theorem State.dropTop_regs_of_push {s t : State} {v : State → Byte} (h : ∀ q, t.reg q = (s.push v).reg q) :
    t.dropTop.regs = s.regs := by
  refine State.regs_eq_of_reg fun q => ?_
  rw [State.dropTop_reg, State.sp_eq_reg, h, h, State.push_reg_eq, State.push_reg_eq, if_pos rfl]
  split_ifs with hq
  · rw [pushedSp, BitVec.sub_add_cancel, State.sp_eq_reg, hq]
  · rfl

@[simp] theorem State.advance_top (s : State) (n : Nat) : (s.advance n).top = s.top := rfl

@[simp] theorem State.jumpTo_top (s : State) (target : Byte) : (s.jumpTo target).top = s.top := rfl

/-- The byte on top after a push is the byte pushed. -/
theorem State.push_top {s : State} (hwf : s.mem.wf = true) (v : State → Byte) :
    (s.push v).top = v (s.setSp (pushedSp s)) := by
  have hsp : (s.push v).sp = pushedSp s := s.push_reg_eq v 7
  rw [State.top, hsp, State.push_read_top hwf]

theorem State.setReg_reg_self (s : State) (r q : RegIdx) : (s.setReg r (s.reg r)).reg q = s.reg q := by
  rw [State.setReg_reg]
  split_ifs with hq
  · rw [hq]
  · rfl

/-- Settles O46: POP loads the byte PUSH stored, which the register holds already, and SP comes back. -/
theorem popUndoesPush : Obligations.PopUndoesPush := by
  intro r s t u hwf ht hu
  obtain rfl := Host.Outcome.next.inj ((exec_push_regByte r s).symm.trans ht)
  obtain rfl := Host.Outcome.next.inj ((exec_pop_regByte r _).symm.trans hu)
  have htop : ((s.push fun s' => s'.reg r).advance 2).top = (s.push fun s' => s'.reg r).reg r := by
    rw [State.advance_top, State.push_top hwf, State.setSp_pushedSp_reg, State.push_reg_eq]
  refine State.dropTop_regs_of_push (v := fun s' => s'.reg r) fun q => ?_
  rw [htop]
  exact State.setReg_reg_self _ r q

/-- Settles O47: RET loads the return address CALL stored, and SP comes back. -/
theorem retReturnsAfterCall : Obligations.RetReturnsAfterCall := by
  intro r s t u hwf hret ht hu
  obtain rfl := Host.Outcome.next.inj ((exec_call_of_fits r hret).symm.trans ht)
  obtain rfl := Host.Outcome.next.inj hu
  refine ⟨?_, State.dropTop_regs_of_push (v := fun _ => s.returnByte) fun _ => rfl, rfl⟩
  rw [State.dropTop_pc, State.jumpTo_pc_toNat, State.jumpTo_top, State.push_top hwf, State.returnByte_toNat hret]

/-! #### A stored byte as the next opcode (R44) -/

theorem State.fetch_of_hlt {s : State} (hpc : s.pc.toNat ≤ 255) (hop : s.mem.read s.pc.toNat = 0x01#8) :
    s.fetch = .ok .hlt := by
  refine State.fetch_eq_ok_iff_read.mpr ⟨Nat.succ_le_succ hpc, fun k hk => ?_⟩
  obtain rfl : k = 0 := Nat.lt_one_iff.mp hk
  exact hop

/-- Settles O48: the byte at the next `pc` is the one PUSH stored, which the fetch reads as an opcode. -/
theorem storedByteIsFetchedNext : Obligations.StoredByteIsFetchedNext := by
  intro r s t v hwf hr ht haddr hv
  obtain rfl := Host.Outcome.next.inj ((exec_push_regByte r s).symm.trans ht)
  have hlt := (pushedSp s).isLt
  generalize htdef : (s.push fun s' => s'.reg r).advance 2 = t
  have hrun : t.run = .running := by rw [← htdef]; exact hr
  have hpc : t.pc.toNat = (pushedSp s).toNat := by
    rw [← htdef, State.advance_pc, State.push_pc, BitVec.toNat_add, BitVec.toNat_ofNat]
    omega
  have hread : t.mem.read t.pc.toNat = v := by
    rw [hpc, hv, ← htdef, State.advance_mem, State.push_read_top hwf, State.setSp_pushedSp_reg]
  refine ⟨?_, fun hundefined => ?_⟩
  · rintro rfl
    exact step_of_fetch_ok hrun (State.fetch_of_hlt (by omega) hread)
  · rw [← hread] at hundefined ⊢
    exact unknownOpcodeFaults t hrun (by omega) hundefined

end Sys2Proof.Machine
